-- ==== Sys2Proof/Word.lean ====
section
/-! DEFINITION. The widths of the block's data: bytes, command words, texts (00_scope.md R5, 30_encoding.md R80). -/

namespace Sys2Proof

/-- An unsigned 8-bit value (R5). -/
abbrev Byte := BitVec 8

/-- A 16-bit command word or response word (R80, R83). -/
abbrev Word := BitVec 16

/-- A byte string, first byte first (R6). -/
abbrev Text := List Byte

end Sys2Proof
end

