-- ==== Sys2Proof/Config.lean ====
section
/-! DEFINITION. The parameters the block is built with (00_scope.md R3, 92 D47) and the model's free values. -/

namespace Sys2Proof

/-- Which consumers decrement the pending-CR counter: the OPEN parameter CR_ACCOUNTING (R3, R7, 92 D7). -/
inductive CrAccounting where
  | explicit
  | everyCr
  deriving DecidableEq, Repr, Inhabited

/-- One choice of the link environment at one SERVICE: the bytes received on each link and how many bytes each
transmitter takes. Neither is bounded (R108). -/
structure Draw where
  rxM : Text
  txM : Nat
  rxT : Text
  txT : Nat
  deriving DecidableEq, Repr, Inhabited

/-- The parameters of R3. NLINKS is the type `Link`, PCR_WIDTH the width of `LinkState.pcr`. -/
structure Config where
  /-- LINK_CAP -/
  linkCap : Nat
  /-- SMALL_CAP -/
  smallCap : Nat
  /-- PAYLOAD_CAP -/
  payloadCap : Nat
  /-- WAIT_BUDGET -/
  waitBudget : Nat
  /-- CR_ACCOUNTING -/
  crAccounting : CrAccounting
  /-- ESC_BYTE -/
  escByte : Byte
  /-- MAX_OPERAND; none is ∞ -/
  maxOperand : Option Nat
  /-- TIME_UNIT: no rule reads it (R255) -/
  timeUnit : Nat
  deriving DecidableEq, Repr

/-- The ranges of R3 and 92 D47. WAIT_BUDGET is at least 0, which a Nat is. -/
abbrev Config.wf (c : Config) : Prop := 2 ≤ c.linkCap ∧ 1 ≤ c.smallCap ∧ 1 ≤ c.payloadCap

/-- Free value: PAYLOAD_CAP - 1, OPEN in the spec (R3; log 1). -/
opaque Config.openPayloadTextMax : Nat

/-- Free value: CR_ACCOUNTING, OPEN in the spec (R3; log 1). -/
opaque Config.openCrAccounting : CrAccounting

/-- Free value: TIME_UNIT, OPEN in the spec and read by no rule (R3; log 1). -/
opaque Config.openTimeUnit : Nat

/-- Free value: the environment's draw at the n-th service of a run, where `State.draws` lists none (R108; log 5). -/
opaque Config.freeDraw : Nat → Draw

/-- The parameters at the spec's default values, the OPEN ones free; MAX_OPERAND is ∞ (R3; log 1, log 2). -/
def Config.asBuilt : Config where
  linkCap := 250
  smallCap := 32
  payloadCap := Config.openPayloadTextMax + 1
  waitBudget := 20000
  crAccounting := Config.openCrAccounting
  escByte := 0x1B
  maxOperand := none
  timeUnit := Config.openTimeUnit

end Sys2Proof
end

