-- ==== Sys2Proof/Syntax.lean ====
section
/-! DEFINITION. The commands of the block, one constructor per row of spec/opcode_table.json (30_encoding.md R84). -/

namespace Sys2Proof

/-- The two links: module and terminal (R32). -/
inductive Link where
  | m
  | t
  deriving DecidableEq, Repr

/-- The two directions of a link's channels (R32). -/
inductive Dir where
  | rx
  | tx
  deriving DecidableEq, Repr

/-- A command with the fields its row leaves open (R81) and its operand string (R82). -/
inductive Instr where
  /-- CH_PUSH (R103) -/
  | chPush (l : Link) (d : Dir) (b : Byte)
  /-- CH_POP (R105) -/
  | chPop (l : Link) (d : Dir)
  /-- CH_AVAIL (R104) -/
  | chAvail (l : Link) (d : Dir)
  /-- PROBE (R123) -/
  | probe (l : Link) (expected : Text)
  /-- EXTRACT (R126) -/
  | extract (l : Link) (cap : Byte)
  /-- SKIP (R128) -/
  | skip (l : Link)
  /-- EXECUTE (R140) -/
  | execute (commandText : Text)
  /-- SEND_RAW (R192) -/
  | sendRaw (l : Link) (text : Text)
  /-- SEND_UDP (R190) -/
  | sendUdp (payload : Text)
  /-- TRY_RECV (R168) -/
  | tryRecv
  /-- RESET_LINK (R200) -/
  | resetLink (l : Link)
  /-- SERVICE (R108) -/
  | service
  deriving DecidableEq, Repr

end Sys2Proof
end

