-- ==== Sys2Proof/WellFormed.lean ====
section
/-! DEFINITION. The one check a command term needs: its operand string is at most MAX_OPERAND bytes (30_encoding.md R80, R87). -/

namespace Sys2Proof

/-- The operand string a command carries; empty for the commands that take none (R82). -/
def Instr.operand : Instr → Text
  | .chPush _ _ _ => []
  | .chPop _ _ => []
  | .chAvail _ _ => []
  | .probe _ e => e
  | .extract _ _ => []
  | .skip _ => []
  | .execute c => c
  | .sendRaw _ x => x
  | .sendUdp p => p
  | .tryRecv => []
  | .resetLink _ => []
  | .service => []

/-- `|OPS| ≤ MAX_OPERAND`, where none stands for ∞ (R3, R87). -/
def operandFits (maxOperand : Option Nat) (ops : Text) : Bool :=
  match maxOperand with
  | none => true
  | some n => decide (ops.length ≤ n)

/-- A command term spells a command of a block built with this MAX_OPERAND (R87). -/
def Instr.wf (maxOperand : Option Nat) (i : Instr) : Bool := operandFits maxOperand i.operand

end Sys2Proof
end

