-- ==== Sys2Proof/Decode.lean ====
section
/-! DEFINITION. The command encoding: the rows of 30_encoding.md R85, the total decoder of R87, and the encoder of R80 and R84. -/

namespace Sys2Proof

/-! ### The opcode table -/

/-- The twelve mnemonics of R84. -/
inductive Mnemonic where
  | CH_PUSH | CH_POP | CH_AVAIL | PROBE | EXTRACT | SKIP | EXECUTE | SEND_RAW | SEND_UDP | TRY_RECV | RESET_LINK | SERVICE
  deriving DecidableEq, Repr

/-- One row of R85: the word matches when its masked bits equal the pattern; `takesOperand` is the operand column. -/
structure Row where
  mnemonic : Mnemonic
  pattern : Word
  mask : Word
  takesOperand : Bool
  deriving DecidableEq, Repr

/-- The table of R85. -/
def opcodeTable : List Row :=
  [ ⟨.CH_PUSH,    0x0800, 0xF900, false⟩,
    ⟨.CH_POP,     0x1000, 0xF9FF, false⟩,
    ⟨.CH_AVAIL,   0x1800, 0xF9FF, false⟩,
    ⟨.PROBE,      0x2000, 0xFBFF, true⟩,
    ⟨.EXTRACT,    0x2800, 0xFB00, false⟩,
    ⟨.SKIP,       0x3000, 0xFBFF, false⟩,
    ⟨.EXECUTE,    0x4000, 0xFFFF, true⟩,
    ⟨.SEND_RAW,   0x4A00, 0xFBFF, true⟩,
    ⟨.SEND_UDP,   0x5200, 0xFFFF, true⟩,
    ⟨.TRY_RECV,   0x5800, 0xFFFF, false⟩,
    ⟨.RESET_LINK, 0x6000, 0xFBFF, false⟩,
    ⟨.SERVICE,    0x6800, 0xFFFF, false⟩ ]

/-- `(W & mask) = match` (R85). -/
def Row.accepts (r : Row) (w : Word) : Bool := w &&& r.mask == r.pattern

/-! ### Fields of the command word (R80, R81) -/

/-- `W[15:11]` -/
def opField (w : Word) : BitVec 5 := w.extractLsb' 11 5

/-- `W[10]`: 0 is the module link, 1 the terminal link. -/
def linkField (w : Word) : Link := if w.getLsbD 10 then .t else .m

/-- `W[9]`: 0 is RX, 1 is TX. -/
def dirField (w : Word) : Dir := if w.getLsbD 9 then .tx else .rx

/-- `W[8]`, reserved. -/
def zField (w : Word) : Bool := w.getLsbD 8

/-- `W[7:0]` -/
def immField (w : Word) : Byte := w.extractLsb' 0 8

/-! ### Decoder -/

/-- The two results of `Decode` (R87). -/
inductive Decoded where
  | command (i : Instr)
  | illegalCommand (w : Word)
  deriving DecidableEq, Repr

/-- The command of a row, its fields taken from the word (R81, R87). -/
def Mnemonic.build (k : Mnemonic) (w : Word) (ops : Text) : Instr :=
  match k with
  | .CH_PUSH => .chPush (linkField w) (dirField w) (immField w)
  | .CH_POP => .chPop (linkField w) (dirField w)
  | .CH_AVAIL => .chAvail (linkField w) (dirField w)
  | .PROBE => .probe (linkField w) ops
  | .EXTRACT => .extract (linkField w) (immField w)
  | .SKIP => .skip (linkField w)
  | .EXECUTE => .execute ops
  | .SEND_RAW => .sendRaw (linkField w) ops
  | .SEND_UDP => .sendUdp ops
  | .TRY_RECV => .tryRecv
  | .RESET_LINK => .resetLink (linkField w)
  | .SERVICE => .service

/-- `Decode(W, OPS)` (R87): total on every word and operand string. -/
def decode (maxOperand : Option Nat) (w : Word) (ops : Text) : Decoded :=
  match opcodeTable.find? (fun r => r.accepts w) with
  | none => .illegalCommand w
  | some r =>
    if !operandFits maxOperand ops then .illegalCommand w
    else if !r.takesOperand && !ops.isEmpty then .illegalCommand w
    else .command (r.mnemonic.build w ops)

/-! ### Encoder -/

/-- `L` as its bit (R80). -/
def Link.bit : Link → BitVec 1
  | .m => 0
  | .t => 1

/-- `D` as its bit (R80). -/
def Dir.bit : Dir → BitVec 1
  | .rx => 0
  | .tx => 1

/-- `W = {OP[4:0], L, D, Z, IMM[7:0]}` with Z = 0 (R80). -/
def assembleWord (op : BitVec 5) (l d : BitVec 1) (imm : Byte) : Word := op ++ l ++ d ++ (0 : BitVec 1) ++ imm

/-- The command word of a command: the operation codes of R84 and the fixed fields of R85. -/
def commandWord : Instr → Word
  | .chPush l d b => assembleWord 0x01 l.bit d.bit b
  | .chPop l d => assembleWord 0x02 l.bit d.bit 0
  | .chAvail l d => assembleWord 0x03 l.bit d.bit 0
  | .probe l _ => assembleWord 0x04 l.bit 0 0
  | .extract l cap => assembleWord 0x05 l.bit 0 cap
  | .skip l => assembleWord 0x06 l.bit 0 0
  | .execute _ => assembleWord 0x08 0 0 0
  | .sendRaw l _ => assembleWord 0x09 l.bit 1 0
  | .sendUdp _ => assembleWord 0x0A 0 1 0
  | .tryRecv => assembleWord 0x0B 0 0 0
  | .resetLink l => assembleWord 0x0C l.bit 0 0
  | .service => assembleWord 0x0D 0 0 0

/-- The command word and operand string of a command (R80, R82). -/
def encode (i : Instr) : Word × Text := (commandWord i, i.operand)

/-! ### The host's reading of one table word -/

/-- The word of the first `nbits` bits of w, the bits above them 0. The command is delivered as one unit, so there
are no bytes to lay out (R64). -/
def tableWord (nbits w : Nat) : Word := BitVec.ofNat 16 (w % 2 ^ nbits)

/-- The command the decoder reads from a table word with an empty operand string; MAX_OPERAND plays no part, since
an empty string is within every bound. -/
def decodeTableWord (nbits w : Nat) : Option Instr :=
  match decode none (tableWord nbits w) [] with
  | .command i => some i
  | .illegalCommand _ => none

end Sys2Proof
end

