-- ==== Sys2Proof/Machine/State.lean ====
section
/-! DEFINITION. The state of the block (10_state.md R30 to R44), its reasons to stop, and power-on reset (R48, R240). -/

namespace Sys2Proof.Machine

/-! ### Storage and channels -/

/-- Byte-wide storage as (slot, byte) pairs, slots strictly rising. A slot that is not listed holds no value (R48; log 6). -/
abbrev Memory := List Host.Cell

/-- A Byte Channel (R31). `head` is the slot the next byte is written to, `tail` the slot of the oldest unread byte. -/
structure Channel where
  buf : Memory
  head : Nat
  tail : Nat
  deriving DecidableEq, Repr

/-- What belongs to one link: its two channels (R32), its pending-CR counter (R36) and the trace of the bytes its
transmitter has taken, oldest first (R44). -/
structure LinkState where
  rx : Channel
  tx : Channel
  pcr : BitVec 16
  wire : Text
  deriving DecidableEq, Repr

/-! ### Frame decoder and endpoint (module link only) -/

/-- EscapeFrameState (R38). -/
inductive FrameState where
  | idle
  | sawEsc
  | sawU
  | haveCid
  | readingIp
  | readingPort
  | readingPayload
  deriving DecidableEq, Repr

/-- The frame decoder's state and scratch (R38, R39). A text is its buffer's bytes before the NUL. -/
structure Decoder where
  st : FrameState
  cid : Byte
  ip : Text
  port : Text
  pay : Text
  deriving DecidableEq, Repr

/-- The ModuleEndpoint (R40). No command reads or writes `adapter`. -/
structure Endpoint where
  valid : Bool
  cid : Byte
  ip : Text
  port : Text
  adapter : Byte
  deriving DecidableEq, Repr

/-- A delivered frame (R42). -/
structure Frame where
  cid : Byte
  ip : Text
  port : Text
  payload : Text
  deriving DecidableEq, Repr

/-! ### Results, recorded faults and commands -/

/-- CommandResult (R41). No command produces `data` (R145). -/
inductive CommandResult where
  | ok
  | error
  | timeout
  | data
  deriving DecidableEq, Repr

/-- The response of a completed command: the response word and zero to three texts (R83). -/
structure Response where
  rw : Word
  texts : List Text
  deriving DecidableEq, Repr

/-- The two fault reasons, each recording the command word (R43, R210). -/
inductive FaultReason where
  /-- Raised by decode, for a word or operand string that spells no command. -/
  | illegalCommand (w : Word)
  /-- Raised by SEND_UDP while no endpoint was ever learned. -/
  | endpointUnset (w : Word)
  deriving DecidableEq, Repr

/-- One command as the caller issues it: the command word and its operand string (R80). -/
structure Issue where
  word : Word
  operand : Text
  deriving DecidableEq, Repr

/-! ### The state -/

/-- The state of R30, the parameters the block is built with (R3, log 1), and the model's own fields `pending`,
`responses`, `draws` and `serviced` (log 3, 5, 10). -/
structure State where
  /-- The parameters; no step changes them (R46). -/
  cfg : Config
  /-- The module link M. -/
  m : LinkState
  /-- The terminal link T. -/
  t : LinkState
  dec : Decoder
  ep : Endpoint
  /-- The recorded fault, if any (R43). -/
  fault : Option FaultReason
  /-- Model's own: the commands the caller has still to issue, the next one first (log 3). -/
  pending : List Issue
  /-- Model's own: the responses returned so far, oldest first (R9, log 10). -/
  responses : List Response
  /-- Model's own: the link environment's next choices, one for each service (R108, log 5). -/
  draws : List Draw
  /-- Model's own: how many services have run; the argument of `Config.freeDraw` (log 5). -/
  serviced : Nat
  deriving DecidableEq, Repr

/-! ### Reasons to stop -/

/-- Why a step has no next state. -/
inductive Fault where
  /-- A fault is recorded, so there is no step for any command (R212). Raised by `step` and by every meaning. Safe:
  the spec says the run is stuck. -/
  | stuck (r : FaultReason)
  /-- A storage slot that nothing has written was read (R48). Raised by `chRead`. Safe: the model stops where the spec
  defines no value, and no reachable state shows it. -/
  | unwrittenSlot
  /-- A storage slot at or above LINK_CAP was accessed (R61). Raised by `chRead` and `chWrite`. Safe: there is no such
  slot, and no reachable state shows it. -/
  | noSuchSlot
  deriving DecidableEq, Repr

/-- Why a command has no meaning. -/
inductive Refusal where
  /-- The instruction's meaning is not written. Raised by an arm of `exec` only; no arm does. Safe: nothing can be proved
  of such an instruction. -/
  | notModelled (mnemonic : String)
  deriving DecidableEq, Repr

/-! ### Power-on reset -/

/-- An empty channel whose storage holds no value (R48). -/
def Channel.reset : Channel := ⟨[], 0, 0⟩

/-- One link at power-on (R48). -/
def LinkState.reset : LinkState := ⟨Channel.reset, Channel.reset, 0, []⟩

/-- The decoder after reset: Idle, its scratch cleared (R48, R200). -/
def Decoder.reset : Decoder := ⟨.idle, 0x00, [], [], []⟩

/-- The endpoint at power-on: not valid. The other fields are unspecified in R48; the model names zero and empty
texts (log 8, DESIGN CHOICE, unsafe). -/
def Endpoint.reset : Endpoint := ⟨false, 0x00, [], [], 0x00⟩

/-- The power-on state of a block built with the parameters `c` (R48, R240), no command issued and no draw made. -/
def State.powerOn (c : Config) : State where
  cfg := c
  m := LinkState.reset
  t := LinkState.reset
  dec := Decoder.reset
  ep := Endpoint.reset
  fault := none
  pending := []
  responses := []
  draws := []
  serviced := 0

/-- The machine right after power-on reset, at the spec's default parameters (R240). -/
def State.reset : State := State.powerOn Config.asBuilt

end Sys2Proof.Machine
end

