-- ==== Sys2Proof/Machine/Operands.lean ====
section
/-! DEFINITION. The bytes and texts the rules speak of: byte constants (00_scope.md R4), byte classes (R5), the saturating
append of 43_frame_decoder.md, and the selection of a link or a channel by a command's fields (30_encoding.md R81). -/

namespace Sys2Proof.Machine

/-! ### Byte constants (R4; ASCII, log 12) -/

def byteNUL : Byte := 0x00
def byteTAB : Byte := 0x09
def byteLF : Byte := 0x0A
def byteCR : Byte := 0x0D
def byteSPACE : Byte := 0x20
def byteCOLON : Byte := 0x3A
def byteE : Byte := 0x45
def byteK : Byte := 0x4B
def byteO : Byte := 0x4F
def byteR : Byte := 0x52
def byteU : Byte := 0x55

/-- "OK" -/
def tokenOK : Text := [byteO, byteK]

/-- "ERROR" -/
def tokenERROR : Text := [byteE, byteR, byteR, byteO, byteR]

/-! ### Byte classes (R5): unsigned comparisons -/

/-- A control byte below space. -/
def isControl (b : Byte) : Bool := decide (b.toNat < 0x20)

/-- A printable byte (≥ space). -/
def isPrintable (b : Byte) : Bool := decide (0x20 ≤ b.toNat)

/-! ### Texts -/

/-- `Sat(t, b, cap)`: append unless the text already holds `cap - 1` bytes. -/
def satAppend (t : Text) (b : Byte) (cap : Nat) : Text := if t.length + 1 < cap then t ++ [b] else t

/-! ### Links and channels -/

def State.link (s : State) : Link → LinkState
  | .m => s.m
  | .t => s.t

def State.setLink (s : State) (l : Link) (k : LinkState) : State :=
  match l with
  | .m => { s with m := k }
  | .t => { s with t := k }

def LinkState.chan (k : LinkState) : Dir → Channel
  | .rx => k.rx
  | .tx => k.tx

/-- `S.ch[L][D]` (R32) -/
def State.chan (s : State) (l : Link) (d : Dir) : Channel := (s.link l).chan d

end Sys2Proof.Machine
end

