-- ==== Sys2Proof/Machine/Flags.lean ====
section
/-! DEFINITION. The block's computed conditions and counters: channel count and availability (10_state.md R33, R35), the
pending-CR counter's arithmetic (R36), the encodings of R38, R41 and R210, and the response words (30_encoding.md R83). -/

namespace Sys2Proof.Machine

/-! ### Index arithmetic and channel conditions -/

/-- `(a - b) mod n` of R6: the remainder in 0 to n-1, never negative. -/
def modSub (a b n : Nat) : Nat := (a + (n - b % n)) % n

/-- `count(ch)` (R33) -/
def Channel.count (cap : Nat) (ch : Channel) : Nat := modSub ch.head ch.tail cap

/-- `avail(ch)`: head ≠ tail (R35) -/
def Channel.avail (ch : Channel) : Bool := ch.head != ch.tail

/-- `rem(ch, w)`: the held bytes from position w up to head (41_line_matcher.md). -/
def Channel.rem (cap : Nat) (ch : Channel) (w : Nat) : Nat := modSub ch.head w cap

/-! ### Pending-CR counter -/

/-- `sat_inc_16` (R6, R36) -/
def satInc (c : BitVec 16) : BitVec 16 := if c = 0xFFFF then 0xFFFF else c + 1

/-- `sat_dec` (R6, R36) -/
def satDec (c : BitVec 16) : BitVec 16 := if c = 0 then 0 else c - 1

/-- `sat_dec` once for every CR byte of a consumed span (R122). -/
def satDecEach (c : BitVec 16) : Text → BitVec 16
  | [] => c
  | x :: xs => satDecEach (if x = byteCR then satDec c else c) xs

/-- The counter after a consumer takes byte b, under `if CR_ACCOUNTING = EVERY_CR and b = CR` (R7, R102). -/
def everyCrDec (acc : CrAccounting) (b : Byte) (c : BitVec 16) : BitVec 16 :=
  if b = byteCR then
    match acc with
    | .explicit => c
    | .everyCr => satDec c
  else c

/-! ### Encodings -/

/-- The 3-bit encoding of EscapeFrameState (R38); 7 is never written. -/
def FrameState.code : FrameState → BitVec 3
  | .idle => 0
  | .sawEsc => 1
  | .sawU => 2
  | .haveCid => 3
  | .readingIp => 4
  | .readingPort => 5
  | .readingPayload => 6

/-- The 2-bit code of CommandResult (R41). -/
def CommandResult.code : CommandResult → BitVec 2
  | .ok => 0
  | .error => 1
  | .timeout => 2
  | .data => 3

/-- The cause code of a fault reason (R210). -/
def FaultReason.causeCode : FaultReason → Nat
  | .illegalCommand _ => 1
  | .endpointUnset _ => 2

/-! ### Responses (R83) -/

/-- RW 0x0000 and no text: CH_PUSH, SKIP, SEND_RAW, SEND_UDP, RESET_LINK, SERVICE. -/
def respNone : Response := ⟨0x0000, []⟩

/-- True 0x0001 or false 0x0000: CH_AVAIL, PROBE. -/
def respBool (b : Bool) : Response := ⟨if b then 0x0001 else 0x0000, []⟩

/-- `0x0100 + b` for a byte taken, 0x0000 for an empty channel: CH_POP. -/
def respByte : Option Byte → Response
  | none => ⟨0x0000, []⟩
  | some b => ⟨0x0100 + b.setWidth 16, []⟩

/-- The length and the extracted text: EXTRACT. -/
def respText (x : Text) : Response := ⟨BitVec.ofNat 16 x.length, [x]⟩

/-- `RW[1:0]` the code, `RW[8]` and the text for a captured line: EXECUTE. -/
def respResult (r : CommandResult) (line : Option Text) : Response :=
  match line with
  | none => ⟨r.code.setWidth 16, []⟩
  | some x => ⟨r.code.setWidth 16 + 0x0100, [x]⟩

/-- `0x0100 + cid` and the three texts of a delivered frame, 0x0000 otherwise: TRY_RECV. -/
def respFrame : Option Frame → Response
  | none => ⟨0x0000, []⟩
  | some f => ⟨0x0100 + f.cid.setWidth 16, [f.ip, f.port, f.payload]⟩

end Sys2Proof.Machine
end

