-- ==== Sys2Proof/Machine/Ops.lean ====
section
/-! DEFINITION. The named operations the commands share: storage (20_memory.md R60 to R62), the channel primitives
(40_byte_channel.md R100 to R102, R110), one service (R108), raising a fault and completing a command (60_exceptions.md
R211, R212), and taking the caller's next command. -/

namespace Sys2Proof.Machine

/-! ### Storage: a list of (slot, byte) pairs in one canonical form -/

/-- The canonical form: slots strictly rising. A slot not listed holds no value, so no entry can equal what an
unlisted slot reads as (log 6). -/
abbrev Memory.wf (mem : Memory) : Prop := List.Pairwise (fun x y : Host.Cell => x.1 < y.1) mem

/-- The byte a slot holds; none where nothing was written (R48). -/
def Memory.read : Memory → Nat → Option Byte
  | [], _ => none
  | c :: rest, i => if c.1 = i then some c.2 else Memory.read rest i

/-- Storage after slot i is written with v. -/
def Memory.write : Memory → Nat → Byte → Memory
  | [], i, v => [(i, v)]
  | c :: rest, i, v =>
    if i < c.1 then (i, v) :: c :: rest
    else if i = c.1 then (i, v) :: rest
    else c :: Memory.write rest i v

/-- `ChRead(ch, i)` (R6). -/
def chRead (cap : Nat) (ch : Channel) (i : Nat) : Except Fault Byte :=
  if i < cap then
    match Memory.read ch.buf i with
    | some b => .ok b
    | none => .error .unwrittenSlot
  else .error .noSuchSlot

/-- `ChWrite(ch, i, v)` (R6). -/
def chWrite (cap : Nat) (ch : Channel) (i : Nat) (v : Byte) : Except Fault Channel :=
  if i < cap then .ok { ch with buf := Memory.write ch.buf i v } else .error .noSuchSlot

/-- Position `i + 1`, modulo LINK_CAP (R61). -/
def nextSlot (cap i : Nat) : Nat := (i + 1) % cap

/-- The held bytes from position `w` on, `n` of them: `[ChRead(ch, (w + i) mod LINK_CAP) for i in 0..n-1]` (R33, R122). -/
def readSpan (cap : Nat) (ch : Channel) : Nat → Nat → Except Fault Text
  | _, 0 => .ok []
  | w, n + 1 => do
    let b ← chRead cap ch w
    let rest ← readSpan cap ch (nextSlot cap w) n
    .ok (b :: rest)

/-! ### Channel primitives -/

/-- `Push(ch, b)`: append at head; when that makes head equal tail, evict the oldest byte (R100). -/
def push (cap : Nat) (ch : Channel) (b : Byte) : Except Fault Channel := do
  let ch ← chWrite cap ch ch.head b
  let head := nextSlot cap ch.head
  .ok { ch with head := head, tail := if head = ch.tail then nextSlot cap ch.tail else ch.tail }

/-- `Pop(ch)`: take the oldest byte, or none from an empty channel (R102). -/
def pop (cap : Nat) (ch : Channel) : Except Fault (Option Byte × Channel) :=
  if ch.head = ch.tail then .ok (none, ch)
  else do
    let b ← chRead cap ch ch.tail
    .ok (some b, { ch with tail := nextSlot cap ch.tail })

/-- `PushString(ch, s)`: push the bytes in order, with no service between them (R110). -/
def pushString (cap : Nat) (ch : Channel) : Text → Except Fault Channel
  | [] => .ok ch
  | b :: rest => do
    let ch ← push cap ch b
    pushString cap ch rest

/-- `RxPush(L, b)`: the receiver's delivery, which counts a CR (R101). -/
def rxPush (cfg : Config) (k : LinkState) (b : Byte) : Except Fault LinkState := do
  let rx ← push cfg.linkCap k.rx b
  .ok { k with rx := rx, pcr := if b = byteCR then satInc k.pcr else k.pcr }

/-- `RxTake(L)`: `Pop` on the RX channel with the EVERY_CR accounting (R102). -/
def rxTake (cfg : Config) (k : LinkState) : Except Fault (Option Byte × LinkState) := do
  let (r, rx) ← pop cfg.linkCap k.rx
  match r with
  | none => .ok (none, { k with rx := rx })
  | some b => .ok (some b, { k with rx := rx, pcr := everyCrDec cfg.crAccounting b k.pcr })

/-- `Push(S.ch[L][TX], b)` (R103). -/
def txPush (cfg : Config) (k : LinkState) (b : Byte) : Except Fault LinkState := do
  let tx ← push cfg.linkCap k.tx b
  .ok { k with tx := tx }

/-- `Pop(S.ch[L][TX])` (R105). -/
def txPop (cfg : Config) (k : LinkState) : Except Fault (Option Byte × LinkState) := do
  let (r, tx) ← pop cfg.linkCap k.tx
  .ok (r, { k with tx := tx })

/-- `PushString(S.ch[L][TX], s)` (R110). -/
def txPushString (cfg : Config) (k : LinkState) (x : Text) : Except Fault LinkState := do
  let tx ← pushString cfg.linkCap k.tx x
  .ok { k with tx := tx }

/-! ### One service (R108) -/

/-- The receiver delivers the received bytes in order. -/
def receive (cfg : Config) (k : LinkState) : Text → Except Fault LinkState
  | [] => .ok k
  | b :: rest => do
    let k ← rxPush cfg k b
    receive cfg k rest

/-- The transmitter takes up to n bytes and puts them on the wire; once the channel is empty, further takes change
nothing. -/
def transmit (cfg : Config) (k : LinkState) : Nat → Except Fault LinkState
  | 0 => .ok k
  | n + 1 => do
    let (r, k) ← txPop cfg k
    match r with
    | none => .ok k
    | some b => transmit cfg { k with wire := k.wire ++ [b] } n

/-- The body of SERVICE for one link. -/
def serviceLink (cfg : Config) (k : LinkState) (rx : Text) (tx : Nat) : Except Fault LinkState := do
  let k ← receive cfg k rx
  transmit cfg k tx

/-- The environment's choice at service k of a run: the next listed draw, or a free value (log 5). -/
def pickDraw (ds : List Draw) (k : Nat) : Draw :=
  match ds with
  | d :: _ => d
  | [] => Config.freeDraw k

/-- The environment's choice at the next service. -/
def State.nextDraw (s : State) : Draw := pickDraw s.draws s.serviced

/-- The state with that choice used up. -/
def State.drawTaken (s : State) : State := { s with draws := s.draws.tail, serviced := s.serviced + 1 }

/-- The body of SERVICE under the draw d: the module link first, then the terminal link. -/
def serviceWith (s : State) (d : Draw) : Except Fault State := do
  let m ← serviceLink s.cfg s.m d.rxM d.txM
  let t ← serviceLink s.cfg s.t d.rxT d.txT
  .ok { s with m := m, t := t }

/-- One service with the environment's next choice. -/
def serviceNext (s : State) : Except Fault State := serviceWith s.drawTaken s.nextDraw

/-! ### Raising a fault, and completing a command -/

/-- `raise F(W)`: record the fault unless one is recorded; no other field changes and no response is returned (R211).
The block has no trap entry beyond this (R217), and no return from one: only power-on, `State.powerOn`, clears it (R218). -/
def State.raise (s : State) (r : FaultReason) : State :=
  match s.fault with
  | some _ => s
  | none => { s with fault := some r }

/-- How a command ends: with a response (R83), or by raising a fault (R211). -/
inductive Completion where
  | responds (r : Response) (s : State)
  | raises (r : FaultReason)
  deriving DecidableEq, Repr

/-- A command on state s: no step when a fault is recorded (R212); else its body, whose response is returned or whose
fault is recorded in the state before the command (R211). -/
def perform (s : State) (body : Except Fault Completion) : Host.Outcome State Fault Refusal :=
  match s.fault with
  | some r => .fault (.stuck r)
  | none =>
    match body with
    | .error f => .fault f
    | .ok (.responds r s') => .next { s' with responses := s'.responses ++ [r] }
    | .ok (.raises r) => .next (s.raise r)

/-- A body that changes one link and returns a response. -/
def onLink (s : State) (l : Link) (body : Except Fault (Response × LinkState)) : Except Fault Completion := do
  let (r, k) ← body
  .ok (.responds r (s.setLink l k))

/-! ### The caller's next command -/

/-- The command the caller issues next, and the state with it taken; none when the caller issues no further command
(R9; log 3, log 4). -/
def State.nextIssue (s : State) : Option (Issue × State) :=
  match s.pending with
  | [] => none
  | c :: rest => some (c, { s with pending := rest })

/-- The state in which the caller issues c before its other commands. -/
def State.issueFirst (s : State) (c : Issue) : State := { s with pending := c :: s.pending }

end Sys2Proof.Machine
end

