-- ==== Sys2Proof/Machine/ByteChannel.lean ====
section
/-! DEFINITION. The Byte Channel family: CH_PUSH, CH_POP, CH_AVAIL and SERVICE (40_byte_channel.md). -/

namespace Sys2Proof.Machine

/-- A byte appended to a channel of a link, RX as the receiver delivers it (R103). -/
def linkPush (cfg : Config) (k : LinkState) (d : Dir) (b : Byte) : Except Fault LinkState :=
  match d with
  | .rx => rxPush cfg k b
  | .tx => txPush cfg k b

/-- The oldest byte taken from a channel of a link (R105). -/
def linkTake (cfg : Config) (k : LinkState) (d : Dir) : Except Fault (Option Byte × LinkState) :=
  match d with
  | .rx => rxTake cfg k
  | .tx => txPop cfg k

/-- CH_PUSH (R103) -/
def execChPush (l : Link) (d : Dir) (b : Byte) (s : State) : Host.Outcome State Fault Refusal :=
  perform s <| onLink s l do
    let k ← linkPush s.cfg (s.link l) d b
    .ok (respNone, k)

/-- CH_POP (R105) -/
def execChPop (l : Link) (d : Dir) (s : State) : Host.Outcome State Fault Refusal :=
  perform s <| onLink s l do
    let (r, k) ← linkTake s.cfg (s.link l) d
    .ok (respByte r, k)

/-- CH_AVAIL (R104) -/
def execChAvail (l : Link) (d : Dir) (s : State) : Host.Outcome State Fault Refusal :=
  perform s <| .ok (.responds (respBool (s.chan l d).avail) s)

/-- SERVICE (R108) -/
def execService (s : State) : Host.Outcome State Fault Refusal :=
  perform s do
    let s' ← serviceNext s
    .ok (.responds respNone s')

end Sys2Proof.Machine
end

