-- ==== Sys2Proof/Machine/LineMatcher.lean ====
section
/-! DEFINITION. The Line/Token Matcher: its primitives (41_line_matcher.md R120 to R122, R125, R127) and PROBE, EXTRACT
and SKIP. -/

namespace Sys2Proof.Machine

/-! ### Primitives -/

/-- The byte at position w and the position after it, or none when the channel ends there (R120). -/
def readAt (cap : Nat) (ch : Channel) (w : Nat) : Except Fault (Option (Byte × Nat)) :=
  if ch.rem cap w = 0 then .ok none
  else do
    let c ← chRead cap ch w
    .ok (some (c, nextSlot cap w))

/-- The LF rule of `NormRead`: one LF is skipped and the byte after it substituted (R120). -/
def skipLF (cap : Nat) (ch : Channel) (c : Byte) (w : Nat) : Except Fault (Option (Byte × Nat)) :=
  if c = byteLF then readAt cap ch w else .ok (some (c, w))

/-- The ESC rule of `NormRead`: an ESC and the next two bytes are skipped (R120). -/
def skipMarker (cap : Nat) (esc : Byte) (ch : Channel) (c : Byte) (w : Nat) : Except Fault (Option (Byte × Nat)) :=
  if c = esc then
    if ch.rem cap w < 3 then .ok none
    else do
      let c ← chRead cap ch ((w + 2) % cap)
      .ok (some (c, nextSlot cap ((w + 2) % cap)))
  else .ok (some (c, w))

/-- `NormRead(ch, w)`: the next normalised byte and the position after it, or none for `fail` (R120). It writes no state. -/
def normRead (cfg : Config) (ch : Channel) (w : Nat) : Except Fault (Option (Byte × Nat)) := do
  match ← readAt cfg.linkCap ch w with
  | none => .ok none
  | some (c, w) =>
    match ← skipLF cfg.linkCap ch c w with
    | none => .ok none
    | some (c, w) => skipMarker cfg.linkCap cfg.escByte ch c w

/-- The comparisons of `Probe`: the working position after the last matched byte, or none on a mismatch (R121). -/
def compareFrom (cfg : Config) (ch : Channel) : Nat → Text → Except Fault (Option Nat)
  | w, [] => .ok (some w)
  | w, e :: rest => do
    match ← normRead cfg ch w with
    | none => .ok none
    | some (c, w) => if c = e then compareFrom cfg ch w rest else .ok none

/-- The counter after `Commit` of the consumed span (R122): one decrement for a trailing CR under EXPLICIT, one for every
CR of the span under EVERY_CR. -/
def commitPcr (acc : CrAccounting) (c : BitVec 16) (span : Text) (crHit : Bool) : BitVec 16 :=
  match acc with
  | .explicit => if crHit then satDec c else c
  | .everyCr => satDecEach c span

/-- `Commit(L, w_end, crHit)` (R122). -/
def commit (cfg : Config) (k : LinkState) (wEnd : Nat) (crHit : Bool) : Except Fault LinkState := do
  let span ← readSpan cfg.linkCap k.rx k.rx.tail (modSub wEnd k.rx.tail cfg.linkCap)
  .ok { k with rx := { k.rx with tail := wEnd }, pcr := commitPcr cfg.crAccounting k.pcr span crHit }

/-- `Probe(L, E)`: non-destructive on a mismatch; on a match the trailing-CR check, then the commit (R121). -/
def probe (cfg : Config) (k : LinkState) (e : Text) : Except Fault (Bool × LinkState) := do
  match ← compareFrom cfg k.rx k.rx.tail e with
  | none => .ok (false, k)
  | some w => do
    let k ← match ← normRead cfg k.rx w with
      | some (c, w') => if c = byteCR then commit cfg k w' true else commit cfg k w false
      | none => commit cfg k w false
    .ok (true, k)

/-- The loop of `Extract`, collecting into x. The fuel, one more than the channel's count, never runs out on a
channel whose indices are in range (R256; log 11). -/
def extractLoop (cfg : Config) (cap : Nat) : Nat → LinkState → Text → Except Fault (Text × LinkState)
  | 0, k, x => .ok (x, k)
  | fuel + 1, k, x => do
    let (r, rx) ← pop cfg.linkCap k.rx
    let k := { k with rx := rx }
    match r with
    | none => .ok (x, k)
    | some b =>
      if b = byteCR then .ok (x, { k with pcr := satDec k.pcr })
      else if b = byteNUL then .ok (x, k)
      else if isControl b then extractLoop cfg cap fuel k x
      else extractLoop cfg cap fuel k (satAppend x b cap)

/-- `Extract(L, cap)` (R125). -/
def extract (cfg : Config) (k : LinkState) (cap : Nat) : Except Fault (Text × LinkState) :=
  extractLoop cfg cap (k.rx.count cfg.linkCap + 1) k []

/-- The loop of `Skip`, with fuel as in `extractLoop`. -/
def skipLoop (cfg : Config) : Nat → LinkState → Except Fault LinkState
  | 0, k => .ok { k with pcr := 0 }
  | fuel + 1, k => do
    let (r, rx) ← pop cfg.linkCap k.rx
    let k := { k with rx := rx }
    match r with
    | none => .ok { k with pcr := 0 }
    | some b => if b = byteCR then .ok { k with pcr := satDec k.pcr } else skipLoop cfg fuel k

/-- `Skip(L)` (R127). -/
def skipLine (cfg : Config) (k : LinkState) : Except Fault LinkState :=
  skipLoop cfg (k.rx.count cfg.linkCap + 1) k

/-! ### Commands -/

/-- PROBE (R123) -/
def execProbe (l : Link) (expected : Text) (s : State) : Host.Outcome State Fault Refusal :=
  perform s <| onLink s l do
    let (r, k) ← probe s.cfg (s.link l) expected
    .ok (respBool r, k)

/-- EXTRACT (R126) -/
def execExtract (l : Link) (cap : Byte) (s : State) : Host.Outcome State Fault Refusal :=
  perform s <| onLink s l do
    let (x, k) ← extract s.cfg (s.link l) cap.toNat
    .ok (respText x, k)

/-- SKIP (R128) -/
def execSkip (l : Link) (s : State) : Host.Outcome State Fault Refusal :=
  perform s <| onLink s l do
    let k ← skipLine s.cfg (s.link l)
    .ok (respNone, k)

end Sys2Proof.Machine
end

