-- ==== Sys2Proof/Machine/CommandEngine.lean ====
section
/-! DEFINITION. The Command/Response Engine: EXECUTE (42_command_engine.md). -/

namespace Sys2Proof.Machine

/-- What the classification of one line finds (R142). -/
inductive Classified where
  | ok
  | error
  | line (x : Text)
  deriving DecidableEq, Repr

/-- One classification: "OK", then "ERROR", then the data capture (R142). -/
def classify (cfg : Config) (k : LinkState) : Except Fault (Classified × LinkState) := do
  let (isOk, k) ← probe cfg k tokenOK
  if isOk then .ok (.ok, k)
  else do
    let (isError, k) ← probe cfg k tokenERROR
    if isError then .ok (.error, k)
    else do
      let (x, k) ← extract cfg k cfg.smallCap
      .ok (.line x, k)

/-- The bounded poll, n increments to go and `line` the last captured line: each increment is one service of both links,
then at most one classification (R140, R141, R143). -/
def pollLoop : Nat → Option Text → State → Except Fault (CommandResult × Option Text × State)
  | 0, line, s => .ok (.timeout, line, s)
  | n + 1, line, s => do
    let s ← serviceNext s
    if s.m.pcr = 0 then pollLoop n line s
    else do
      let (c, m) ← classify s.cfg s.m
      let s := { s with m := m }
      match c with
      | .ok => .ok (.ok, line, s)
      | .error => .ok (.error, line, s)
      | .line x => pollLoop n (some x) s

/-- EXECUTE (R140) -/
def execExecute (commandText : Text) (s : State) : Host.Outcome State Fault Refusal :=
  perform s do
    let m ← txPushString s.cfg s.m commandText
    let (r, line, s') ← pollLoop s.cfg.waitBudget none { s with m := m }
    .ok (.responds (respResult r line) s')

end Sys2Proof.Machine
end

