-- ==== Sys2Proof/Machine/FrameDecoder.lean ====
section
/-! DEFINITION. The Frame Decoder: its byte transition function (43_frame_decoder.md R160 to R167) and TRY_RECV (R168). -/

namespace Sys2Proof.Machine

/-- `DecStep(b)`: one byte through the state machine, and the frame it completes, if any (R160). The arms test the byte
in the order of R161 to R166 (log 14). -/
def decStep (cfg : Config) (d : Decoder) (b : Byte) : Option Frame × Decoder :=
  match d.st with
  | .idle => (none, if b = cfg.escByte then { d with st := .sawEsc } else d)
  | .sawEsc => (none, if b = byteU then { d with st := .sawU } else { d with st := .idle })
  | .sawU => (none, { d with cid := b, ip := [], st := .haveCid })
  | .haveCid | .readingIp =>
    (none,
      if b = cfg.escByte then { d with st := .idle }
      else if b = byteSPACE then { d with port := [], st := .readingPort }
      else { d with ip := if isPrintable b then satAppend d.ip b cfg.smallCap else d.ip, st := .readingIp })
  | .readingPort =>
    (none,
      if b = cfg.escByte then { d with st := .idle }
      else if b = byteTAB then { d with pay := [], st := .readingPayload }
      else if isPrintable b then { d with port := satAppend d.port b cfg.smallCap }
      else d)
  | .readingPayload =>
    if b = cfg.escByte then (some ⟨d.cid, d.ip, d.port, d.pay⟩, { d with st := .idle })
    else (none, if isPrintable b then { d with pay := satAppend d.pay b cfg.payloadCap } else d)

/-- `UpdateEndpoint(f)` (R170). -/
def updateEndpoint (ep : Endpoint) (f : Frame) : Endpoint :=
  { ep with valid := true, cid := f.cid, ip := f.ip, port := f.port }

/-- The loop of TRY_RECV, with fuel one more than the channel's count (R168, R256; log 11). -/
def recvLoop (cfg : Config) : Nat → LinkState → Decoder → Except Fault (Option Frame × LinkState × Decoder)
  | 0, k, d => .ok (none, k, d)
  | fuel + 1, k, d => do
    let (r, k) ← rxTake cfg k
    match r with
    | none => .ok (none, k, d)
    | some b =>
      match decStep cfg d b with
      | (none, d) => recvLoop cfg fuel k d
      | (some f, d) => .ok (some f, k, d)

/-- TRY_RECV (R168) -/
def execTryRecv (s : State) : Host.Outcome State Fault Refusal :=
  perform s do
    let (f, m, d) ← recvLoop s.cfg (s.m.rx.count s.cfg.linkCap + 1) s.m s.dec
    .ok (.responds (respFrame f)
      { s with m := m, dec := d, ep := match f with | none => s.ep | some f => updateEndpoint s.ep f })

end Sys2Proof.Machine
end

