-- ==== Sys2Proof/Machine/FrameEncoder.lean ====
section
/-! DEFINITION. The Frame Encoder and the raw send: SEND_UDP and SEND_RAW (44_frame_encoder.md). -/

namespace Sys2Proof.Machine

/-- The outbound frame `ESC 'U' cid ip ':' port ':' payload ESC 'E'`, with no escaping (R190, R191, R193). -/
def outboundFrame (cfg : Config) (ep : Endpoint) (payload : Text) : Text :=
  [cfg.escByte, byteU, ep.cid] ++ ep.ip ++ [byteCOLON] ++ ep.port ++ [byteCOLON] ++ payload ++ [cfg.escByte, byteE]

/-- SEND_UDP: raises EndpointUnset, before any byte is pushed, while no endpoint was learned (R190, R211). -/
def execSendUdp (payload : Text) (s : State) : Host.Outcome State Fault Refusal :=
  perform s <|
    if s.ep.valid then
      onLink s .m do
        let k ← txPushString s.cfg s.m (outboundFrame s.cfg s.ep payload)
        .ok (respNone, k)
    else .ok (.raises (.endpointUnset (commandWord (.sendUdp payload))))

/-- SEND_RAW (R192) -/
def execSendRaw (l : Link) (text : Text) (s : State) : Host.Outcome State Fault Refusal :=
  perform s <| onLink s l do
    let k ← txPushString s.cfg (s.link l) text
    .ok (respNone, k)

end Sys2Proof.Machine
end

