-- ==== Sys2Proof/Machine/LinkControl.lean ====
section
/-! DEFINITION. Link control: RESET_LINK (45_link_control.md). -/

namespace Sys2Proof.Machine

/-- A channel emptied; its storage bytes are not cleared (R200). -/
def Channel.emptied (ch : Channel) : Channel := { ch with head := 0, tail := 0 }

/-- Both channels of a link emptied and its counter zeroed; the wire trace is kept (R200). -/
def LinkState.cleared (k : LinkState) : LinkState :=
  { k with rx := k.rx.emptied, tx := k.tx.emptied, pcr := 0 }

/-- RESET_LINK: the decoder too when the link is M. The endpoint, the wire traces and the fault are kept (R200, R201). -/
def execResetLink (l : Link) (s : State) : Host.Outcome State Fault Refusal :=
  perform s <|
    let s' := s.setLink l (s.link l).cleared
    match l with
    | .m => .ok (.responds respNone { s' with dec := Decoder.reset })
    | .t => .ok (.responds respNone s')

end Sys2Proof.Machine
end

