-- ==== Sys2Proof/Machine/Dispatch.lean ====
section
/-! DEFINITION. The one table of meanings: each command's arm is one call of its meaning. -/

namespace Sys2Proof.Machine

def exec (i : Instr) (s : State) : Host.Outcome State Fault Refusal :=
  match i with
  | .chPush l d b => Sys2Proof.Machine.execChPush l d b s
  | .chPop l d => Sys2Proof.Machine.execChPop l d s
  | .chAvail l d => Sys2Proof.Machine.execChAvail l d s
  | .probe l expected => Sys2Proof.Machine.execProbe l expected s
  | .extract l cap => Sys2Proof.Machine.execExtract l cap s
  | .skip l => Sys2Proof.Machine.execSkip l s
  | .execute commandText => Sys2Proof.Machine.execExecute commandText s
  | .sendRaw l text => Sys2Proof.Machine.execSendRaw l text s
  | .sendUdp payload => Sys2Proof.Machine.execSendUdp payload s
  | .tryRecv => Sys2Proof.Machine.execTryRecv s
  | .resetLink l => Sys2Proof.Machine.execResetLink l s
  | .service => Sys2Proof.Machine.execService s

end Sys2Proof.Machine
end

