-- ==== Sys2Proof/Machine/Step.lean ====
section
/-! DEFINITION. One step of the block: the caller's next command is taken, decoded and executed (00_scope.md R9,
60_exceptions.md R216). -/

namespace Sys2Proof.Machine

/-- One step. A recorded fault comes first (R212, R216); then the decoder's verdict, where a word that spells no command
raises IllegalCommand (R211); then the command's meaning. With no command issued the block waits (log 4). -/
def step (s : State) : Host.Outcome State Fault Refusal :=
  match s.fault with
  | some r => .fault (.stuck r)
  | none =>
    match s.nextIssue with
    | none => .next s
    | some (c, s') =>
      match decode s'.cfg.maxOperand c.word c.operand with
      | .command i => exec i s'
      | .illegalCommand w => .next (s'.raise (.illegalCommand w))

/-- The state in which the caller issues next the command whose word is the first `nbits` bits of w, with an empty
operand string (log 3). -/
def State.withFetchWord (s : State) (nbits w : Nat) : State := s.issueFirst ⟨tableWord nbits w, []⟩

end Sys2Proof.Machine
end

