-- ==== Sys2Proof/Machine/Assembler.lean ====
section
/-! DEFINITION. The assembler syntax and the pseudo-instructions (30_encoding.md R95 to R97): one line of text becomes the
commands it stands for, and a line that spells none is refused. Lexical details the spec leaves open, and string operands
longer than MAX_OPERAND, are log 15. -/

namespace Sys2Proof.Machine

/-! ### Tokens -/

/-- A token of an assembly line: a word, a comma, or a string literal with its escapes taken. -/
inductive AsmToken where
  | word (cs : List Char)
  | comma
  | str (x : Text)
  deriving DecidableEq, Repr

/-- The value of a hexadecimal digit. -/
def hexDigit (c : Char) : Option Nat :=
  let n := c.toNat
  if 48 ≤ n && n ≤ 57 then some (n - 48)
  else if 65 ≤ n && n ≤ 70 then some (n - 55)
  else if 97 ≤ n && n ≤ 102 then some (n - 87)
  else none

/-- The value of a decimal digit. -/
def decDigit (c : Char) : Option Nat := if 48 ≤ c.toNat && c.toNat ≤ 57 then some (c.toNat - 48) else none

/-- Digits in a base, most significant first; none for a character that is no digit. -/
def digits (digit : Char → Option Nat) (base : Nat) : Nat → List Char → Option Nat
  | acc, [] => some acc
  | acc, c :: cs =>
    match digit c with
    | none => none
    | some v => digits digit base (acc * base + v) cs

/-- A number, decimal or `0x` hexadecimal (R95). -/
def asmNumber : List Char → Option Nat
  | [] => none
  | ['0', 'x'] => none
  | '0' :: 'x' :: hs => digits hexDigit 16 0 hs
  | ds => digits decDigit 10 0 ds

/-- A string literal after its opening quote: its bytes, and the text after the closing quote. Escapes are those of R95;
ESC is `esc`. -/
def asmString (esc : Byte) : List Char → Option (Text × List Char)
  | [] => none
  | '"' :: rest => some ([], rest)
  | '\\' :: 'r' :: rest => (asmString esc rest).map fun p => (byteCR :: p.1, p.2)
  | '\\' :: 'n' :: rest => (asmString esc rest).map fun p => (byteLF :: p.1, p.2)
  | '\\' :: 't' :: rest => (asmString esc rest).map fun p => (byteTAB :: p.1, p.2)
  | '\\' :: '0' :: rest => (asmString esc rest).map fun p => (byteNUL :: p.1, p.2)
  | '\\' :: 'e' :: rest => (asmString esc rest).map fun p => (esc :: p.1, p.2)
  | '\\' :: 'x' :: a :: b :: rest =>
    match hexDigit a, hexDigit b with
    | some x, some y => (asmString esc rest).map fun p => (BitVec.ofNat 8 (16 * x + y) :: p.1, p.2)
    | _, _ => none
  | '\\' :: _ => none
  | c :: rest => if c.toNat < 128 then (asmString esc rest).map fun p => (BitVec.ofNat 8 c.toNat :: p.1, p.2) else none

/-- The characters that end a word. -/
def endsWord (c : Char) : Bool := c == ' ' || c == ',' || c == '"'

/-- The tokens of a line; the fuel is the line's length. -/
def asmTokens (esc : Byte) : Nat → List Char → Option (List AsmToken)
  | _, [] => some []
  | 0, _ :: _ => none
  | fuel + 1, c :: cs =>
    if c == ' ' then asmTokens esc fuel cs
    else if c == ',' then (asmTokens esc fuel cs).map (AsmToken.comma :: ·)
    else if c == '"' then
      match asmString esc cs with
      | none => none
      | some (x, rest) => (asmTokens esc fuel rest).map (AsmToken.str x :: ·)
    else
      (asmTokens esc fuel ((c :: cs).dropWhile fun a => !endsWord a)).map
        (AsmToken.word ((c :: cs).takeWhile fun a => !endsWord a) :: ·)

/-! ### Operands (R95) -/

def asmLink (cs : List Char) : Option Link :=
  if cs = ['m'] then some .m else if cs = ['t'] then some .t else none

def asmChan (cs : List Char) : Option (Link × Dir) :=
  if cs = "m.rx".toList then some (.m, .rx)
  else if cs = "m.tx".toList then some (.m, .tx)
  else if cs = "t.rx".toList then some (.t, .rx)
  else if cs = "t.tx".toList then some (.t, .tx)
  else none

/-- A number that fits IMM; a larger one is refused rather than encoded (R95). -/
def asmImm (cs : List Char) : Option Byte :=
  match asmNumber cs with
  | none => none
  | some n => if n < 256 then some (BitVec.ofNat 8 n) else none

/-! ### Lines -/

/-- A line that is a mnemonic alone. -/
def asmPlain (op : List Char) : Option (List Instr) :=
  if op = "RECVUDP".toList then some [.tryRecv]
  else if op = "SERVICE".toList then some [.service]
  else none

/-- A line with one word operand. -/
def asmOneWord (op a : List Char) : Option (List Instr) :=
  if op = "POP".toList then (asmChan a).map fun c => [.chPop c.1 c.2]
  else if op = "AVAIL".toList then (asmChan a).map fun c => [.chAvail c.1 c.2]
  else if op = "SKIP".toList then (asmLink a).map fun l => [.skip l]
  else if op = "RESET".toList then (asmLink a).map fun l => [.resetLink l]
  else if op = "PROBE.OK".toList then (asmLink a).map fun l => [.probe l tokenOK]
  else if op = "PROBE.ERR".toList then (asmLink a).map fun l => [.probe l tokenERROR]
  else if op = "EXTRACT.LINE".toList then (asmLink a).map fun l => [.extract l 32]
  else none

/-- A line with one string operand. -/
def asmOneStr (op : List Char) (x : Text) : Option (List Instr) :=
  if op = "EXEC".toList then some [.execute x]
  else if op = "SENDUDP".toList then some [.sendUdp x]
  else none

/-- A line with two word operands. -/
def asmTwoWords (op a b : List Char) : Option (List Instr) :=
  if op = "PUSH".toList then
    match asmChan a, asmImm b with
    | some c, some v => some [.chPush c.1 c.2 v]
    | _, _ => none
  else if op = "EXTRACT".toList then
    match asmLink a, asmImm b with
    | some l, some v => some [.extract l v]
    | _, _ => none
  else if op = "DRAIN".toList then
    match asmChan a, asmNumber b with
    | some c, some n => some (List.replicate n (.chPop c.1 c.2))
    | _, _ => none
  else none

/-- A line with a word and a string operand. -/
def asmWordStr (op a : List Char) (x : Text) : Option (List Instr) :=
  if op = "PROBE".toList then (asmLink a).map fun l => [.probe l x]
  else if op = "SEND".toList then (asmLink a).map fun l => [.sendRaw l x]
  else if op = "PUSHS".toList then (asmChan a).map fun c => x.map (.chPush c.1 c.2)
  else none

/-- The commands an assembly line stands for (R95, R96); none where it spells no command. DESIGN CHOICE (log 15): no bound
is put on a string operand. R95 does not say whether the assembler refuses one longer than a finite MAX_OPERAND; such a
line is accepted here, and `decode` answers IllegalCommand for the command it gives. -/
def assembleLine (esc : Byte) (line : String) : Option (List Instr) :=
  match asmTokens esc line.toList.length line.toList with
  | some [.word op] => asmPlain op
  | some [.word op, .word a] => asmOneWord op a
  | some [.word op, .str x] => asmOneStr op x
  | some [.word op, .word a, .comma, .word b] => asmTwoWords op a b
  | some [.word op, .word a, .comma, .str x] => asmWordStr op a x
  | _ => none

/-! ### Programs (R97) -/

/-- A command as the caller issues it. -/
def Instr.issue (i : Instr) : Issue := ⟨commandWord i, i.operand⟩

/-- The state with a program, a finite list of commands, and the draws of its service points placed from outside (R97;
log 3). -/
def State.load (s : State) (program : List Instr) (draws : List Draw) : State :=
  { s with pending := program.map Instr.issue, draws := draws }

end Sys2Proof.Machine
end

