-- ==== Sys2Proof/Safety.lean ====
section
/-! DEFINITION. What claims speak of: channel content (10_state.md R33), well-formed states (R31, R34, R39, R40), runs
(00_scope.md R9), and the block's operations on plain byte lists, against which the ring-buffer operations are stated. -/

namespace Sys2Proof.Machine

/-! ### Content and well-formed states -/

/-- `content(ch)`: the held bytes, oldest first (R33). A slot that holds no value is left out; a well-formed channel
has none in its content. -/
def Channel.content (cap : Nat) (ch : Channel) : Text :=
  (List.range (ch.count cap)).filterMap fun i => Memory.read ch.buf ((ch.tail + i) % cap)

/-- A well-formed channel: storage in canonical form within the slots there are, indices in range (R31), and every slot
of the content written (R62). -/
abbrev Channel.wf (cap : Nat) (ch : Channel) : Prop :=
  Memory.wf ch.buf ∧ (∀ c ∈ ch.buf, c.1 < cap) ∧ ch.head < cap ∧ ch.tail < cap ∧
    ∀ i < ch.count cap, (Memory.read ch.buf ((ch.tail + i) % cap)).isSome

/-- Both channels of a link are well-formed. -/
abbrev LinkState.wf (cap : Nat) (k : LinkState) : Prop := Channel.wf cap k.rx ∧ Channel.wf cap k.tx

/-- The decoder's texts are within their buffers (R39). -/
abbrev Decoder.wf (c : Config) (d : Decoder) : Prop :=
  d.ip.length ≤ c.smallCap - 1 ∧ d.port.length ≤ c.smallCap - 1 ∧ d.pay.length ≤ c.payloadCap - 1

/-- The endpoint's texts are within their buffers (R40). -/
abbrev Endpoint.wf (c : Config) (e : Endpoint) : Prop :=
  e.ip.length ≤ c.smallCap - 1 ∧ e.port.length ≤ c.smallCap - 1

/-- A well-formed state: the legal values of every field (R31 to R40), for parameters in their ranges (R3). -/
abbrev State.wf (s : State) : Prop :=
  s.cfg.wf ∧ LinkState.wf s.cfg.linkCap s.m ∧ LinkState.wf s.cfg.linkCap s.t ∧ Decoder.wf s.cfg s.dec ∧
    Endpoint.wf s.cfg s.ep

/-- The content of a link's channel in a state. -/
def State.content (s : State) (l : Link) (d : Dir) : Text := (s.chan l d).content s.cfg.linkCap

/-! ### Runs (R9) -/

/-- `Reaches s s'`: s' is reached from s by steps that answer a next state. -/
inductive Reaches : State → State → Prop where
  | refl (s : State) : Reaches s s
  | step {s s' s'' : State} : Reaches s s' → step s' = .next s'' → Reaches s s''

/-- A safe state: no fault is recorded. A faulted run is never a successful end (R212). -/
def State.safe (s : State) : Prop := s.fault = none

/-! ### The operations on byte lists -/

/-- The last n bytes (R107). -/
def lastN (n : Nat) (x : Text) : Text := x.drop (x.length - n)

/-- `sat_inc` once for every CR byte of a received list (R101). -/
def satIncEach (c : BitVec 16) : Text → BitVec 16
  | [] => c
  | x :: xs => satIncEach (if x = byteCR then satInc c else c) xs

/-- The next byte and the bytes after it. -/
def readList : Text → Option (Byte × Text)
  | [] => none
  | c :: r => some (c, r)

/-- The LF rule on the bytes left (R120). -/
def skipLFList (p : Byte × Text) : Option (Byte × Text) := if p.1 = byteLF then readList p.2 else some p

/-- The ESC rule on the bytes left (R120). -/
def skipMarkerList (esc : Byte) (p : Byte × Text) : Option (Byte × Text) :=
  if p.1 = esc then
    match p.2 with
    | _ :: _ :: c :: r => some (c, r)
    | _ => none
  else some p

/-- `NormRead` on the bytes left: the normalised byte and the bytes after it (R120). -/
def normList (esc : Byte) (x : Text) : Option (Byte × Text) :=
  ((readList x).bind skipLFList).bind (skipMarkerList esc)

/-- The bytes left after the expected string is matched against normalised bytes, or none on a mismatch (R121). -/
def matchList (esc : Byte) : Text → Text → Option Text
  | x, [] => some x
  | x, e :: es =>
    match normList esc x with
    | none => none
    | some (c, r) => if c = e then matchList esc r es else none

/-- The bytes left after a match and its trailing-CR check, and whether a CR was taken (R121). -/
def trailingCr (esc : Byte) (x : Text) : Text × Bool :=
  match normList esc x with
  | none => (x, false)
  | some (c, r) => if c = byteCR then (r, true) else (x, false)

/-- `Extract` on a byte list: the text, the bytes left, and whether a CR ended it (R125). -/
def extractList (cap : Nat) : Text → Text → Text × Text × Bool
  | x, [] => (x, [], false)
  | x, b :: rest =>
    if b = byteCR then (x, rest, true)
    else if b = byteNUL then (x, rest, false)
    else if isControl b then extractList cap x rest
    else extractList cap (satAppend x b cap) rest

/-- `Skip` on a byte list: the bytes after the first CR, or none when there is no CR (R127). -/
def skipList : Text → Option Text
  | [] => none
  | b :: rest => if b = byteCR then some rest else skipList rest

/-- The decoder run on a byte list: the frame completed, if any, the decoder, and the bytes left (R168). -/
def decodeList (cfg : Config) (d : Decoder) : Text → Option Frame × Decoder × Text
  | [] => (none, d, [])
  | b :: rest =>
    match decStep cfg d b with
    | (some f, d') => (some f, d', rest)
    | (none, d') => decodeList cfg d' rest

/-- The counter after a consumer other than the matcher took a span (R102, R168): every CR counts under EVERY_CR, none
under EXPLICIT. -/
def takenPcr (acc : CrAccounting) (c : BitVec 16) (span : Text) : BitVec 16 :=
  match acc with
  | .explicit => c
  | .everyCr => satDecEach c span

/-- The first bytes of x that are not in its suffix r. -/
def consumed (x r : Text) : Text := x.take (x.length - r.length)

/-- The environment's choices at n services from service k on, where ds are still listed. -/
def upcoming : Nat → List Draw → Nat → List Draw
  | 0, _, _ => []
  | n + 1, ds, k => pickDraw ds k :: upcoming n ds.tail (k + 1)

/-- The choices the environment makes at the next n services. -/
def State.drawsAhead (s : State) (n : Nat) : List Draw := upcoming n s.draws s.serviced

/-- How many bytes a list of draws delivers on the module link. -/
def receivedM (ds : List Draw) : Nat := (ds.map fun d => d.rxM.length).sum

/-- How many bytes a list of draws delivers on the terminal link. -/
def receivedT (ds : List Draw) : Nat := (ds.map fun d => d.rxT.length).sum

/-- The storage slots that pushing n bytes at head writes: head, head + 1, ... modulo LINK_CAP (R61). -/
def PushedSlot (cap : Nat) (ch : Channel) (n a : Nat) : Prop := ∃ i < n, a = (ch.head + i) % cap

/-- The channel took n bytes at its head, and every slot outside theirs reads as before. -/
def Advanced (cap n : Nat) (ch ch' : Channel) : Prop :=
  ch'.head = (ch.head + n) % cap ∧ ∀ a, ¬ PushedSlot cap ch n a → Memory.read ch'.buf a = Memory.read ch.buf a

/-! ### Sequences of operations -/

/-- A push or a pop of one channel. -/
inductive ChanOp where
  | push (b : Byte)
  | pop
  deriving DecidableEq, Repr

/-- A sequence of pushes and pops on a channel, with the answers of the pops. -/
def runOps (cap : Nat) (ch : Channel) : List ChanOp → Except Fault (List (Option Byte) × Channel)
  | [] => .ok ([], ch)
  | .push b :: ops => do
    let ch ← push cap ch b
    runOps cap ch ops
  | .pop :: ops => do
    let (r, ch) ← pop cap ch
    let (rs, ch) ← runOps cap ch ops
    .ok (r :: rs, ch)

/-- The same sequence on a byte list that keeps its last n bytes (R107). -/
def runOpsList (n : Nat) (c : Text) : List ChanOp → List (Option Byte) × Text
  | [] => ([], c)
  | .push b :: ops => runOpsList n (lastN n (c ++ [b])) ops
  | .pop :: ops => (c.head? :: (runOpsList n c.tail ops).1, (runOpsList n c.tail ops).2)

/-- Commands executed one after the other, stopping at the first that has no next state. -/
def execAll : List Instr → State → Host.Outcome State Fault Refusal
  | [], s => .next s
  | i :: is, s =>
    match exec i s with
    | .next s' => execAll is s'
    | .fault f => .fault f
    | .refused r => .refused r

/-! ### Tables of the spec -/

/-- The field constraints of R85, column by column: OP, Z, L, D, IMM and the operand. -/
def legalFields (w : Word) (ops : Text) : Prop :=
  zField w = false ∧
  match (opField w).toNat with
  | 0x01 => ops = []
  | 0x02 => immField w = 0 ∧ ops = []
  | 0x03 => immField w = 0 ∧ ops = []
  | 0x04 => dirField w = .rx ∧ immField w = 0
  | 0x05 => dirField w = .rx ∧ ops = []
  | 0x06 => dirField w = .rx ∧ immField w = 0 ∧ ops = []
  | 0x08 => linkField w = .m ∧ dirField w = .rx ∧ immField w = 0
  | 0x09 => dirField w = .tx ∧ immField w = 0
  | 0x0A => linkField w = .m ∧ dirField w = .tx ∧ immField w = 0
  | 0x0B => linkField w = .m ∧ dirField w = .rx ∧ immField w = 0 ∧ ops = []
  | 0x0C => dirField w = .rx ∧ immField w = 0 ∧ ops = []
  | 0x0D => linkField w = .m ∧ dirField w = .rx ∧ immField w = 0 ∧ ops = []
  | _ => False

/-- The byte classes of R167. -/
inductive ByteClass where
  | esc
  | sp
  | tab
  | u
  | pr
  | ctl
  deriving DecidableEq, Repr

/-- The class of a byte (R167); ESC is taken out of the others. -/
def byteClass (esc b : Byte) : ByteClass :=
  if b = esc then .esc
  else if b = byteSPACE then .sp
  else if b = byteTAB then .tab
  else if b = byteU then .u
  else if isPrintable b then .pr
  else .ctl

/-- The next-state column entries of R167's table. -/
def frameTable : FrameState → ByteClass → FrameState
  | .idle, .esc => .sawEsc
  | .idle, _ => .idle
  | .sawEsc, .u => .sawU
  | .sawEsc, _ => .idle
  | .sawU, _ => .haveCid
  | .haveCid, .esc => .idle
  | .haveCid, .sp => .readingPort
  | .haveCid, _ => .readingIp
  | .readingIp, .esc => .idle
  | .readingIp, .sp => .readingPort
  | .readingIp, _ => .readingIp
  | .readingPort, .esc => .idle
  | .readingPort, .tab => .readingPayload
  | .readingPort, _ => .readingPort
  | .readingPayload, .esc => .idle
  | .readingPayload, _ => .readingPayload

/-- The columns of the access matrix R49. -/
inductive Part where
  | rx (l : Link)
  | tx (l : Link)
  | pcr (l : Link)
  | wire (l : Link)
  | dec
  | ep
  | fault
  deriving DecidableEq, Repr

/-- The `w` entries of R49: whether a command may write a part, where `acc` is the build's CR_ACCOUNTING. -/
def mayWrite (acc : CrAccounting) : Instr → Part → Bool
  | .chPush l .rx _, .rx l' => l == l'
  | .chPush l .rx b, .pcr l' => l == l' && b == byteCR
  | .chPush l .tx _, .tx l' => l == l'
  | .chPop l .rx, .rx l' => l == l'
  | .chPop l .rx, .pcr l' => l == l' && acc == .everyCr
  | .chPop l .tx, .tx l' => l == l'
  | .service, .rx _ => true
  | .service, .tx _ => true
  | .service, .pcr _ => true
  | .service, .wire _ => true
  | .probe l _, .rx l' => l == l'
  | .probe l _, .pcr l' => l == l'
  | .extract l _, .rx l' => l == l'
  | .extract l _, .pcr l' => l == l'
  | .skip l, .rx l' => l == l'
  | .skip l, .pcr l' => l == l'
  | .execute _, .rx _ => true
  | .execute _, .tx _ => true
  | .execute _, .pcr _ => true
  | .execute _, .wire _ => true
  | .sendRaw l _, .tx l' => l == l'
  | .sendUdp _, .tx l' => l' == .m
  | .sendUdp _, .fault => true
  | .tryRecv, .rx l' => l' == .m
  | .tryRecv, .pcr l' => l' == .m && acc == .everyCr
  | .tryRecv, .dec => true
  | .tryRecv, .ep => true
  | .resetLink l, .rx l' => l == l'
  | .resetLink l, .tx l' => l == l'
  | .resetLink l, .pcr l' => l == l'
  | .resetLink l, .dec => l == .m
  | _, _ => false

/-- A part has the same value in two states. -/
def samePart (s t : State) : Part → Prop
  | .rx l => (t.link l).rx = (s.link l).rx
  | .tx l => (t.link l).tx = (s.link l).tx
  | .pcr l => (t.link l).pcr = (s.link l).pcr
  | .wire l => (t.link l).wire = (s.link l).wire
  | .dec => t.dec = s.dec
  | .ep => t.ep = s.ep
  | .fault => t.fault = s.fault

/-! ### The queue machine: the same block with each ring buffer replaced by the byte list it holds -/

/-- One link of the queue machine. -/
structure QLink where
  rx : Text
  tx : Text
  pcr : BitVec 16
  wire : Text
  deriving DecidableEq, Repr

/-- The state of the queue machine. -/
structure QState where
  cfg : Config
  m : QLink
  t : QLink
  dec : Decoder
  ep : Endpoint
  fault : Option FaultReason
  pending : List Issue
  responses : List Response
  draws : List Draw
  serviced : Nat
  deriving DecidableEq, Repr

/-- What a link holds, storage forgotten. -/
def LinkState.abs (cap : Nat) (k : LinkState) : QLink := ⟨k.rx.content cap, k.tx.content cap, k.pcr, k.wire⟩

/-- What a state holds, storage and indices forgotten (R33: slots outside the content are not observable). -/
def State.abs (s : State) : QState :=
  ⟨s.cfg, s.m.abs s.cfg.linkCap, s.t.abs s.cfg.linkCap, s.dec, s.ep, s.fault, s.pending, s.responses, s.draws, s.serviced⟩

def QState.link (s : QState) : Link → QLink
  | .m => s.m
  | .t => s.t

def QState.setLink (s : QState) (l : Link) (k : QLink) : QState :=
  match l with
  | .m => { s with m := k }
  | .t => { s with t := k }

/-- Appending bytes to a queue: the last LINK_CAP - 1 stay (R107). -/
def qAppend (cfg : Config) (x y : Text) : Text := lastN (cfg.linkCap - 1) (x ++ y)

/-- Received bytes (R101). -/
def QLink.receive (cfg : Config) (k : QLink) (x : Text) : QLink :=
  { k with rx := qAppend cfg k.rx x, pcr := satIncEach k.pcr x }

/-- One service of a link (R108). -/
def QLink.service (cfg : Config) (k : QLink) (x : Text) (n : Nat) : QLink :=
  { k.receive cfg x with tx := k.tx.drop n, wire := k.wire ++ k.tx.take n }

/-- PROBE (R121, R122). -/
def QLink.probe (cfg : Config) (k : QLink) (e : Text) : Bool × QLink :=
  match matchList cfg.escByte k.rx e with
  | none => (false, k)
  | some r =>
    let p := trailingCr cfg.escByte r
    (true, { k with rx := p.1, pcr := commitPcr cfg.crAccounting k.pcr (consumed k.rx p.1) p.2 })

/-- EXTRACT (R125). -/
def QLink.extract (k : QLink) (cap : Nat) : Text × QLink :=
  let p := extractList cap [] k.rx
  (p.1, { k with rx := p.2.1, pcr := if p.2.2 then satDec k.pcr else k.pcr })

/-- SKIP (R127). -/
def QLink.skip (k : QLink) : QLink :=
  match skipList k.rx with
  | none => { k with rx := [], pcr := 0 }
  | some r => { k with rx := r, pcr := satDec k.pcr }

/-- One service of both links with the environment's next choice (R108). -/
def QState.service (s : QState) : QState :=
  let d := pickDraw s.draws s.serviced
  { s with m := s.m.service s.cfg d.rxM d.txM, t := s.t.service s.cfg d.rxT d.txT,
           draws := s.draws.tail, serviced := s.serviced + 1 }

/-- One classification (R142). -/
def QLink.classify (cfg : Config) (k : QLink) : Classified × QLink :=
  match k.probe cfg tokenOK with
  | (true, k) => (.ok, k)
  | (false, k) =>
    match k.probe cfg tokenERROR with
    | (true, k) => (.error, k)
    | (false, k) => (.line (k.extract cfg.smallCap).1, (k.extract cfg.smallCap).2)

/-- EXECUTE's bounded poll (R140). -/
def QState.poll : Nat → Option Text → QState → CommandResult × Option Text × QState
  | 0, line, s => (.timeout, line, s)
  | n + 1, line, s =>
    let s := s.service
    if s.m.pcr = 0 then QState.poll n line s
    else
      let p := s.m.classify s.cfg
      let s := { s with m := p.2 }
      match p.1 with
      | .ok => (.ok, line, s)
      | .error => (.error, line, s)
      | .line x => QState.poll n (some x) s

/-- A response appended. -/
def QState.respond (s : QState) (r : Response) : QState := { s with responses := s.responses ++ [r] }

/-- What each command does to the queue machine when no fault is recorded. -/
def QState.exec (i : Instr) (s : QState) : QState :=
  match i with
  | .chPush l d b =>
    match d with
    | .rx => (s.setLink l ((s.link l).receive s.cfg [b])).respond respNone
    | .tx => (s.setLink l { s.link l with tx := qAppend s.cfg (s.link l).tx [b] }).respond respNone
  | .chPop l d =>
    match d with
    | .rx =>
      (s.setLink l { s.link l with
        rx := (s.link l).rx.tail,
        pcr := takenPcr s.cfg.crAccounting (s.link l).pcr ((s.link l).rx.take 1) }).respond
        (respByte (s.link l).rx.head?)
    | .tx => (s.setLink l { s.link l with tx := (s.link l).tx.tail }).respond (respByte (s.link l).tx.head?)
  | .chAvail l d =>
    s.respond (respBool (match d with | .rx => !(s.link l).rx.isEmpty | .tx => !(s.link l).tx.isEmpty))
  | .probe l e =>
    (s.setLink l ((s.link l).probe s.cfg e).2).respond (respBool ((s.link l).probe s.cfg e).1)
  | .extract l cap =>
    (s.setLink l ((s.link l).extract cap.toNat).2).respond (respText ((s.link l).extract cap.toNat).1)
  | .skip l => (s.setLink l (s.link l).skip).respond respNone
  | .execute x =>
    let p := QState.poll s.cfg.waitBudget none { s with m := { s.m with tx := qAppend s.cfg s.m.tx x } }
    p.2.2.respond (respResult p.1 p.2.1)
  | .sendRaw l x => (s.setLink l { s.link l with tx := qAppend s.cfg (s.link l).tx x }).respond respNone
  | .sendUdp x =>
    if s.ep.valid then
      ({ s with m := { s.m with tx := qAppend s.cfg s.m.tx (outboundFrame s.cfg s.ep x) } }).respond respNone
    else { s with fault := some (.endpointUnset 0x5200) }
  | .tryRecv =>
    let p := decodeList s.cfg s.dec s.m.rx
    ({ s with
        m := { s.m with
          rx := p.2.2, pcr := takenPcr s.cfg.crAccounting s.m.pcr (consumed s.m.rx p.2.2) },
        dec := p.2.1,
        ep := match p.1 with
          | none => s.ep
          | some f => updateEndpoint s.ep f }).respond (respFrame p.1)
  | .resetLink l =>
    let s' := s.setLink l { s.link l with rx := [], tx := [], pcr := 0 }
    match l with
    | .m => ({ s' with dec := Decoder.reset }).respond respNone
    | .t => s'.respond respNone
  | .service => s.service.respond respNone

/-! ### Words for the statements -/

/-- A link with one of its channels replaced. -/
def LinkState.setChan (k : LinkState) (d : Dir) (ch : Channel) : LinkState :=
  match d with
  | .rx => { k with rx := ch }
  | .tx => { k with tx := ch }

/-- The state with one response more. -/
def State.respond (s : State) (r : Response) : State := { s with responses := s.responses ++ [r] }

/-- A well-formed channel that holds the bytes x. -/
def Channel.contains (cap : Nat) (ch : Channel) (x : Text) : Prop := Channel.wf cap ch ∧ ch.content cap = x

/-- The channel gave up its oldest bytes and holds the bytes x: only tail moved, so every slot of storage reads as
before. -/
def Consumed (cap : Nat) (ch ch' : Channel) (x : Text) : Prop :=
  ch'.buf = ch.buf ∧ ch'.head = ch.head ∧ ch'.contains cap x

/-- The channel took the bytes y at its head: its content is the last LINK_CAP - 1 bytes of what it held and y, and every
slot outside those y was pushed into reads as before. -/
def Pushed (cap : Nat) (ch ch' : Channel) (y : Text) : Prop :=
  ch'.contains cap (lastN (cap - 1) (ch.content cap ++ y)) ∧ Advanced cap y.length ch ch'

/-- One service of a link that receives x and takes at most n bytes to transmit (R108). -/
def Serviced (cap : Nat) (k k' : LinkState) (x : Text) (n : Nat) : Prop :=
  Pushed cap k.rx k'.rx x ∧ Consumed cap k.tx k'.tx ((k.tx.content cap).drop n) ∧
    k'.pcr = satIncEach k.pcr x ∧ k'.wire = k.wire ++ (k.tx.content cap).take n

/-- The channel bytes that make one normalised byte (R120): the byte itself; an LF before it; an ESC and two bytes before
it; an LF and then an ESC and two bytes before it. -/
inductive NormUnit (esc : Byte) : Text → Byte → Prop where
  | plain (b : Byte) : b ≠ byteLF → b ≠ esc → NormUnit esc [b] b
  | afterLF (b : Byte) : b ≠ esc → NormUnit esc [byteLF, b] b
  | afterMarker (x y b : Byte) : esc ≠ byteLF → NormUnit esc [esc, x, y, b] b
  | afterLFMarker (x y b : Byte) : NormUnit esc [byteLF, esc, x, y, b] b

/-- The span u of channel bytes is the expected string e, byte for byte, once normalised (R121). -/
def Spells (esc : Byte) (u e : Text) : Prop := ∃ us : List Text, List.Forall₂ (NormUnit esc) us e ∧ u = us.flatten

/-- The content of an RX channel begins with the expected string (R121). -/
def Found (esc : Byte) (q e : Text) : Prop := ∃ u r, Spells esc u e ∧ q = u ++ r

/-- The text of at most `cap - 1` bytes kept of a field or a line: its first printable bytes (R125, R174). -/
def keptText (cap : Nat) (x : Text) : Text := (x.filter isPrintable).take (cap - 1)

/-- A line's bytes: neither CR nor NUL, which end a line (R125). -/
def noTerminator (x : Text) : Prop := byteCR ∉ x ∧ byteNUL ∉ x

/-- The one link a command acts on (R81); none for EXECUTE and SERVICE, which act on both. -/
def Instr.oneLink : Instr → Option Link
  | .chPush l _ _ => some l
  | .chPop l _ => some l
  | .chAvail l _ => some l
  | .probe l _ => some l
  | .extract l _ => some l
  | .skip l => some l
  | .execute _ => none
  | .sendRaw l _ => some l
  | .sendUdp _ => some .m
  | .tryRecv => some .m
  | .resetLink l => some l
  | .service => none

/-- The frame a peer sends, without the bytes around it (R167): an opener, a CID, three fields and their ends. -/
def inboundFrame (esc cid : Byte) (ip port pay : Text) : Text :=
  [esc, byteU, cid] ++ ip ++ [byteSPACE] ++ port ++ [byteTAB] ++ pay ++ [esc]

end Sys2Proof.Machine
end

