-- ==== Sys2Proof/Certificates/Slice0/Obligations.lean ====
section
/-! DEFINITION. The statements for the provers. Each docstring names the rules of spec/ that a statement formalises. A
statement whose clause rests on a choice of the model names the log entry. -/

open Sys2Proof Sys2Proof.Machine

/-! ### Reset -/

/-- What power-on leaves, for every choice of parameters (R240, R48). Storage bytes and the endpoint's other fields are
unspecified there, and nothing is said of them here. -/
def Obligations.PowerOnLeavesTheResetValues : Prop :=
  ∀ p : Config,
    let s := State.powerOn p
    (∀ l d, (s.chan l d).head = 0 ∧ (s.chan l d).tail = 0 ∧ s.content l d = []) ∧
    (∀ l, (s.link l).pcr = 0 ∧ (s.link l).wire = []) ∧
    s.dec = ⟨.idle, 0x00, [], [], []⟩ ∧ s.ep.valid = false ∧ s.fault = none

/-- The machine after reset is the power-on state at the parameters' default values (R3, R240). The OPEN parameters are
free values, and MAX_OPERAND is ∞ (log 1, log 2). -/
def Obligations.ResetTakesTheDefaultParameters : Prop :=
  State.reset = State.powerOn Config.asBuilt ∧ Sys2Proof.core.reset = State.reset ∧
  State.reset.cfg.linkCap = 250 ∧ State.reset.cfg.smallCap = 32 ∧ State.reset.cfg.waitBudget = 20000 ∧
  State.reset.cfg.escByte = 0x1B ∧ State.reset.cfg.maxOperand = none ∧ 1 ≤ State.reset.cfg.payloadCap

/-- Power-on reset gives a well-formed state, for parameters in their ranges (R3); State.reset is one. -/
def Obligations.PowerOnIsWellFormed : Prop :=
  (∀ p : Config, p.wf → (State.powerOn p).wf) ∧ State.reset.wf

/-- RESET_LINK on either link of the power-on state changes nothing but the responses returned (R242). -/
def Obligations.ResetLinkAfterPowerOnChangesNothing : Prop :=
  ∀ (p : Config) (l : Link), exec (.resetLink l) (State.powerOn p) = .next ((State.powerOn p).respond ⟨0x0000, []⟩)

/-! ### Faults and steps -/

/-- R212: a recorded fault is sticky. No command has a step, RESET_LINK included, so nothing a caller issues clears the
fault; power-on does. -/
def Obligations.RecordedFaultStopsEveryCommand : Prop :=
  (∀ (s : State) (r : FaultReason), s.fault = some r →
    step s = .fault (.stuck r) ∧ ∀ i : Instr, exec i s = .fault (.stuck r)) ∧
  ∀ p : Config, (State.powerOn p).fault = none

/-- R211: raising a fault is precise. The state after it is the state before the command with the fault recorded; the
command itself is no longer among those still to be issued (log 21). No response is returned. -/
def Obligations.RaisingAFaultIsPrecise : Prop :=
  (∀ (s : State) (c : Issue) (rest : List Issue) (w : Word), s.fault = none → s.pending = c :: rest →
    decode s.cfg.maxOperand c.word c.operand = .illegalCommand w →
    step s = .next { s with pending := rest, fault := some (.illegalCommand c.word) }) ∧
  (∀ (s : State) (x : Text), s.fault = none → s.ep.valid = false →
    exec (.sendUdp x) s = .next { s with fault := some (.endpointUnset 0x5200) }) ∧
  (∀ (s : State) (r r' : FaultReason), s.fault = none → s.raise r = { s with fault := some r } ∧
    (s.raise r).raise r' = s.raise r)

/-- R210: the block has two fault reasons, with codes 1 and 2. A step records IllegalCommand exactly when the next word or
operand string spells no command, and EndpointUnset exactly when it is a SEND_UDP and no endpoint was learned; each records
the command word. -/
def Obligations.ExactlyTwoCausesOfAFault : Prop :=
  (∀ w : Word, (FaultReason.illegalCommand w).causeCode = 1 ∧ (FaultReason.endpointUnset w).causeCode = 2) ∧
  ∀ (s : State) (c : Issue) (rest : List Issue), s.fault = none → s.pending = c :: rest →
    ∀ r : FaultReason, (∃ t, step s = .next t ∧ t.fault = some r) ↔
      (decode s.cfg.maxOperand c.word c.operand = .illegalCommand c.word ∧ r = .illegalCommand c.word) ∨
      (decode s.cfg.maxOperand c.word c.operand = .command (.sendUdp c.operand) ∧ s.ep.valid = false ∧
        r = .endpointUnset c.word)

/-- A step executes the command that the next word and operand string spell, in the state with that command taken
(R9, R87). `State.withFetchWord` places such a command; an issued command term is one. With nothing to issue the block
waits (log 4, DESIGN CHOICE). -/
def Obligations.StepRunsTheDecodedCommand : Prop :=
  (∀ (s : State) (c : Issue) (rest : List Issue) (i : Instr), s.fault = none → s.pending = c :: rest →
    decode s.cfg.maxOperand c.word c.operand = .command i → step s = exec i { s with pending := rest }) ∧
  (∀ (s : State) (nbits w : Nat) (i : Instr), s.fault = none →
    decode s.cfg.maxOperand (tableWord nbits w) [] = .command i → step (s.withFetchWord nbits w) = exec i s) ∧
  (∀ (s : State) (i : Instr) (rest : List Instr) (ds : List Draw), s.fault = none → i.wf s.cfg.maxOperand = true →
    step (s.load (i :: rest) ds) = exec i (s.load rest ds)) ∧
  (∀ s : State, s.fault = none → s.pending = [] → step s = .next s)

/-! ### Invariants -/

/-- Every step, and every command, keeps the state well-formed: indices within LINK_CAP, storage in canonical form and
written throughout each content, texts within their buffers (R31, R39, R40). -/
def Obligations.StepsKeepTheStateWellFormed : Prop :=
  ∀ s t : State, s.wf → (step s = .next t ∨ ∃ i, exec i s = .next t) → t.wf

/-- R34: from every well-formed state, power-on among them, each channel of each state reached holds at most
LINK_CAP - 1 bytes, and its head equals its tail exactly when it is empty. -/
def Obligations.ReachableChannelsAreNeverFull : Prop :=
  ∀ s t : State, s.wf → Reaches s t → ∀ (l : Link) (d : Dir),
    (t.chan l d).count t.cfg.linkCap ≤ t.cfg.linkCap - 1 ∧
    (t.content l d).length = (t.chan l d).count t.cfg.linkCap ∧
    ((t.chan l d).head = (t.chan l d).tail ↔ t.content l d = [])

/-- From a well-formed state with no fault recorded, every step and every command has a next state: nothing hangs, and no
storage is read that was not written (R62, R226, R256). -/
def Obligations.NoCommandStopsWithoutAFault : Prop :=
  ∀ s : State, s.wf → s.fault = none → (∃ t, step s = .next t) ∧ ∀ i : Instr, ∃ t, exec i s = .next t

/-- Over any step the parameters stay (R46), the wire traces are never shortened (R44), and at most one response joins
those returned (R83). -/
def Obligations.TracesAreNeverShortened : Prop :=
  ∀ s t : State, step s = .next t →
    t.cfg = s.cfg ∧ (∀ l, ∃ x, (t.link l).wire = (s.link l).wire ++ x) ∧
    ∃ rs, t.responses = s.responses ++ rs ∧ rs.length ≤ 1

/-- Once an endpoint is learned it stays learned (R40, R201), so no later SEND_UDP raises EndpointUnset. -/
def Obligations.ALearnedEndpointStaysLearned : Prop :=
  ∀ s t : State, step s = .next t → s.ep.valid = true → t.ep.valid = true

/-! ### Encoding -/

/-- Every well-formed command decodes from its own encoding, with every operand kept (R80, R87). -/
def Obligations.DecodeOfEncode : Prop :=
  ∀ (m : Option Nat) (i : Instr), i.wf m = true → decode m (encode i).1 (encode i).2 = .command i

/-- A word and operand string that decode to a command are that command's encoding, so each command has one spelling
(R80, R85). -/
def Obligations.EncodeOfDecode : Prop :=
  ∀ (m : Option Nat) (w : Word) (ops : Text) (i : Instr), decode m w ops = .command i →
    encode i = (w, ops) ∧ i.wf m = true

/-- R88: the illegal words are exactly those whose fields or operand string break the constraints, and executing one
raises IllegalCommand (R211). That the command is no longer among those still to be issued is the model's choice (log 21,
DESIGN CHOICE). -/
def Obligations.IllegalWordsAreExactlyTheRest : Prop :=
  ∀ (m : Option Nat) (w : Word) (ops : Text),
    (decode m w ops = .illegalCommand w ↔ ¬ (legalFields w ops ∧ operandFits m ops = true)) ∧
    ∀ (s : State) (rest : List Issue), s.fault = none → s.cfg.maxOperand = m → s.pending = ⟨w, ops⟩ :: rest →
      ¬ (legalFields w ops ∧ operandFits m ops = true) →
      step s = .next { s with pending := rest, fault := some (.illegalCommand w) }

/-- R85: the twelve rows; a word spells a row's command exactly when its masked bits equal the row's match and the operand
rule holds; the rows are disjoint, each fixing OP. -/
def Obligations.RowsSpellTheirCommands : Prop :=
  opcodeTable =
    [ ⟨.CH_PUSH, 0x0800, 0xF900, false⟩, ⟨.CH_POP, 0x1000, 0xF9FF, false⟩, ⟨.CH_AVAIL, 0x1800, 0xF9FF, false⟩,
      ⟨.PROBE, 0x2000, 0xFBFF, true⟩, ⟨.EXTRACT, 0x2800, 0xFB00, false⟩, ⟨.SKIP, 0x3000, 0xFBFF, false⟩,
      ⟨.EXECUTE, 0x4000, 0xFFFF, true⟩, ⟨.SEND_RAW, 0x4A00, 0xFBFF, true⟩, ⟨.SEND_UDP, 0x5200, 0xFFFF, true⟩,
      ⟨.TRY_RECV, 0x5800, 0xFFFF, false⟩, ⟨.RESET_LINK, 0x6000, 0xFBFF, false⟩, ⟨.SERVICE, 0x6800, 0xFFFF, false⟩ ] ∧
  (∀ (m : Option Nat) (w : Word) (ops : Text), ∀ r ∈ opcodeTable,
    (decode m w ops = .command (r.mnemonic.build w ops) ↔
      w &&& r.mask = r.pattern ∧ operandFits m ops = true ∧ (r.takesOperand = false → ops = []))) ∧
  (∀ w : Word, ∀ r ∈ opcodeTable, r.accepts w = true → opField w = opField r.pattern) ∧
  opcodeTable.Pairwise fun r r' => opField r.pattern ≠ opField r'.pattern

/-- R90: the worked encodings, from assembly text to word and operand and back, and the illegal examples. -/
def Obligations.WorkedEncodings : Prop :=
  (∀ e ∈ ([ ("PUSH m.rx, 0x4F", 0x084F, []), ("PUSH m.rx, 0x0D", 0x080D, []), ("PUSH m.tx, 0x41", 0x0A41, []),
      ("PUSH t.rx, 0x0A", 0x0C0A, []), ("PUSH t.tx, 0xFF", 0x0EFF, []), ("POP m.tx", 0x1200, []), ("POP t.rx", 0x1400, []),
      ("AVAIL m.rx", 0x1800, []), ("AVAIL t.tx", 0x1E00, []), ("PROBE m, \"OK\"", 0x2000, [0x4F, 0x4B]),
      ("PROBE t, \"ERROR\"", 0x2400, [0x45, 0x52, 0x52, 0x4F, 0x52]), ("EXTRACT m, 32", 0x2820, []),
      ("SKIP m", 0x3000, []), ("EXEC \"AT\\r\\n\"", 0x4000, [0x41, 0x54, 0x0D, 0x0A]),
      ("SEND m, \"AT\\r\\n\"", 0x4A00, [0x41, 0x54, 0x0D, 0x0A]), ("SEND t, \"hi\"", 0x4E00, [0x68, 0x69]),
      ("SENDUDP \"X\"", 0x5200, [0x58]), ("RECVUDP", 0x5800, []), ("RESET m", 0x6000, []), ("RESET t", 0x6400, []),
      ("SERVICE", 0x6800, []) ] : List (String × Word × Text)),
    ∃ i, assembleLine 0x1B e.1 = some [i] ∧ encode i = (e.2.1, e.2.2) ∧ decode none e.2.1 e.2.2 = .command i) ∧
  let illegal : List Word := [0x0000, 0x0100, 0x1001, 0x2200, 0x4400, 0x3800, 0x7000, 0x0900]
  illegal.map (fun w => decode none w []) = illegal.map Decoded.illegalCommand

/-- R95, R96: an operand outside its field is refused, and each pseudo-instruction is its expansion. EXTRACT.LINE takes 32
(log 15). -/
def Obligations.AssemblerRefusesAndExpands : Prop :=
  (∀ line ∈ ["PUSH m.rx, 256", "EXTRACT m, 256", "EXEC m, \"AT\"", "POP x.rx", "SKIP m.rx", "NOP"],
    assembleLine 0x1B line = none) ∧
  (∀ e ∈ [("PROBE.OK m", "PROBE m, \"OK\""), ("PROBE.ERR t", "PROBE t, \"ERROR\""), ("EXTRACT.LINE m", "EXTRACT m, 32")],
    assembleLine 0x1B e.1 = assembleLine 0x1B e.2 ∧ (assembleLine 0x1B e.1).isSome) ∧
  assembleLine 0x1B "PUSHS t.rx, \"a\\e\"" = some [.chPush .t .rx 0x61, .chPush .t .rx 0x1B] ∧
  assembleLine 0x1B "DRAIN m.tx, 2" = some [.chPop .m .tx, .chPop .m .tx]

/-! ### Counters and codes -/

/-- The pending-CR counter's arithmetic is that of R6: it saturates at 0xFFFF and at 0 (R36). -/
def Obligations.PendingCrSaturates : Prop :=
  ∀ n : BitVec 16, (satInc n).toNat = min (n.toNat + 1) 0xFFFF ∧ (satDec n).toNat = n.toNat - 1

/-- The codes of R38 and R41; no decoder state has code 7. -/
def Obligations.StateAndResultCodes : Prop :=
  (FrameState.idle.code, FrameState.sawEsc.code, FrameState.sawU.code, FrameState.haveCid.code, FrameState.readingIp.code,
    FrameState.readingPort.code, FrameState.readingPayload.code) = (0, 1, 2, 3, 4, 5, 6) ∧
  (∀ st : FrameState, st.code ≠ 7) ∧
  (CommandResult.ok.code, CommandResult.error.code, CommandResult.timeout.code, CommandResult.data.code) = (0, 1, 2, 3)

/-! ### Byte channels -/

/-- R100: a push writes slot head and advances head; when that makes head equal tail, tail advances too. -/
def Obligations.PushWritesHeadAndEvicts : Prop :=
  ∀ (cap : Nat) (ch : Channel) (b : Byte), ch.head < cap →
    push cap ch b = .ok
      { buf := Memory.write ch.buf ch.head b
        head := (ch.head + 1) % cap
        tail := if (ch.head + 1) % cap = ch.tail then (ch.tail + 1) % cap else ch.tail }

/-- R106, R107: pushing a list keeps the last LINK_CAP - 1 bytes of what was held and what was pushed, the bytes lost being
the front ones and as many as the excess; the same with pushes and pops interleaved, each pop taking the front byte; and
the channel never holds more than LINK_CAP - 1 bytes. -/
def Obligations.OverflowDropsTheOldestBytes : Prop :=
  ∀ (cap : Nat) (ch : Channel), 2 ≤ cap → Channel.wf cap ch →
    (∀ x : Text, ∃ ch' lost, pushString cap ch x = .ok ch' ∧ Channel.wf cap ch' ∧
      ch'.content cap = lastN (cap - 1) (ch.content cap ++ x) ∧ ch.content cap ++ x = lost ++ ch'.content cap ∧
      lost.length = (ch.content cap).length + x.length - (cap - 1) ∧ ch'.count cap ≤ cap - 1) ∧
    ∀ ops : List ChanOp, ∃ ch', runOps cap ch ops = .ok ((runOpsList (cap - 1) (ch.content cap) ops).1, ch') ∧
      Channel.wf cap ch' ∧ ch'.content cap = (runOpsList (cap - 1) (ch.content cap) ops).2 ∧ ch'.count cap ≤ cap - 1

/-- R103 (with R100 and R101): CH_PUSH, on every channel, changes that channel, the counter when a CR enters an RX channel,
and nothing else; its response is 0x0000. -/
def Obligations.ChPushAppendsItsByte : Prop :=
  ∀ (s : State) (l : Link) (d : Dir) (b : Byte), s.wf → s.fault = none →
    ∃ ch, exec (.chPush l d b) s = .next
        ((s.setLink l { (s.link l).setChan d ch with
          pcr := if d = .rx ∧ b = 0x0D then satInc (s.link l).pcr else (s.link l).pcr }).respond ⟨0x0000, []⟩) ∧
      Pushed s.cfg.linkCap (s.chan l d) ch [b] ∧ Memory.read ch.buf (s.chan l d).head = some b

/-- R105 (with R102): CH_POP takes the oldest byte of a channel and returns 0x0100 + b; on an empty channel it returns
0x0000 and changes nothing. Taking a CR from RX under EVERY_CR decrements the counter. -/
def Obligations.ChPopTakesTheOldestByte : Prop :=
  ∀ (s : State) (l : Link) (d : Dir), s.wf → s.fault = none →
    (s.content l d = [] → exec (.chPop l d) s = .next (s.respond ⟨0x0000, []⟩)) ∧
    ∀ (b : Byte) (q : Text), s.content l d = b :: q →
      ∃ ch, exec (.chPop l d) s = .next
          ((s.setLink l { (s.link l).setChan d ch with
            pcr := if d = .rx ∧ s.cfg.crAccounting = .everyCr ∧ b = 0x0D then satDec (s.link l).pcr
              else (s.link l).pcr }).respond ⟨0x0100 + b.setWidth 16, []⟩) ∧
        Consumed s.cfg.linkCap (s.chan l d) ch q ∧ ch.tail = ((s.chan l d).tail + 1) % s.cfg.linkCap

/-- R104: CH_AVAIL returns whether head differs from tail, and changes nothing; on a well-formed state that is whether the
channel holds a byte. -/
def Obligations.ChAvailComparesHeadAndTail : Prop :=
  ∀ (s : State) (l : Link) (d : Dir), s.fault = none →
    exec (.chAvail l d) s =
      .next (s.respond ⟨if (s.chan l d).head ≠ (s.chan l d).tail then 0x0001 else 0x0000, []⟩) ∧
    (s.wf → ((s.chan l d).head ≠ (s.chan l d).tail ↔ s.content l d ≠ []))

/-- R108: SERVICE exchanges both links with the environment's draw d = (rx_M, tx_M, rx_T, tx_T), and changes nothing else;
its response is 0x0000. The draw is the next listed one, or a free value (log 5). -/
def Obligations.ServiceExchangesBothLinks : Prop :=
  ∀ s : State, s.wf → s.fault = none →
    ∃ m t, exec .service s = .next
        (State.respond { s with m := m, t := t, draws := s.draws.tail, serviced := s.serviced + 1 } ⟨0x0000, []⟩) ∧
      Serviced s.cfg.linkCap s.m m s.nextDraw.rxM s.nextDraw.txM ∧
      Serviced s.cfg.linkCap s.t t s.nextDraw.rxT s.nextDraw.txT ∧
      ∀ d ds, s.draws = d :: ds → s.nextDraw = d

/-- R96: `PUSHS` on a TX channel leaves the same state as SEND_RAW of the string on that link, but for the responses
returned, one for each byte. -/
def Obligations.PushsLeavesTheStateOfSend : Prop :=
  ∀ (s : State) (l : Link) (x : Text), s.wf → s.fault = none →
    ∃ t t', execAll (x.map fun b => .chPush l .tx b) s = .next t ∧ exec (.sendRaw l x) s = .next t' ∧
      { t with responses := s.responses } = { t' with responses := s.responses } ∧
      t.responses = s.responses ++ List.replicate x.length ⟨0x0000, []⟩

/-! ### Line and token matcher -/

/-- R124, first and third laws, in every state: a PROBE that answers false changes no state, tail included. -/
def Obligations.FailedProbeChangesNothing : Prop :=
  ∀ (s t : State) (l : Link) (e : Text), exec (.probe l e) s = .next t →
    t.responses = s.responses ++ [⟨0x0000, []⟩] → t = s.respond ⟨0x0000, []⟩

/-- R121, R122, R123: PROBE answers true exactly when the content begins with channel bytes that spell the expected string
once normalised. Then it consumes those bytes, and the bytes through a CR when the next normalised byte is one; otherwise
it changes nothing. The counter follows CR_ACCOUNTING. -/
def Obligations.ProbeMatchesNormalisedBytes : Prop :=
  ∀ (s : State) (l : Link) (e : Text), s.wf → s.fault = none →
    let esc := s.cfg.escByte
    let cap := s.cfg.linkCap
    let q := s.content l .rx
    (¬ Found esc q e → exec (.probe l e) s = .next (s.respond ⟨0x0000, []⟩)) ∧
    ∀ u r, Spells esc u e → q = u ++ r →
      (∀ v r', NormUnit esc v 0x0D → r = v ++ r' →
        ∃ ch, exec (.probe l e) s = .next
            ((s.setLink l { s.link l with
              rx := ch
              pcr := match s.cfg.crAccounting with
                | .explicit => satDec (s.link l).pcr
                | .everyCr => satDecEach (s.link l).pcr (u ++ v) }).respond ⟨0x0001, []⟩) ∧
          Consumed cap (s.link l).rx ch r') ∧
      ((¬ ∃ v r', NormUnit esc v 0x0D ∧ r = v ++ r') →
        ∃ ch, exec (.probe l e) s = .next
            ((s.setLink l { s.link l with
              rx := ch
              pcr := match s.cfg.crAccounting with
                | .explicit => (s.link l).pcr
                | .everyCr => satDecEach (s.link l).pcr u }).respond ⟨0x0001, []⟩) ∧
          Consumed cap (s.link l).rx ch r)

/-- R124, second law, at the default escape byte: a probe for "OK" matches both "OK CR" and "OK LF CR" and consumes exactly
through the CR, decrementing the counter once under either accounting. -/
def Obligations.ProbeOkToleratesALineFeed : Prop :=
  ∀ (s : State) (l : Link) (r : Text), s.wf → s.fault = none → s.cfg.escByte = 0x1B →
    (s.content l .rx = [0x4F, 0x4B, 0x0D] ++ r ∨ s.content l .rx = [0x4F, 0x4B, 0x0A, 0x0D] ++ r) →
    ∃ ch, exec (.probe l [0x4F, 0x4B]) s = .next
        ((s.setLink l { s.link l with rx := ch, pcr := satDec (s.link l).pcr }).respond ⟨0x0001, []⟩) ∧
      Consumed s.cfg.linkCap (s.link l).rx ch r

/-- R125, R126: EXTRACT consumes a line through its CR or NUL, or the whole channel when it has neither, and returns the
first `cap - 1` printable bytes of it with their number. Only a CR decrements the counter. -/
def Obligations.ExtractCopiesOneLine : Prop :=
  ∀ (s : State) (l : Link) (cap : Byte) (line rest : Text), s.wf → s.fault = none → noTerminator line →
    let k := s.link l
    let text := keptText cap.toNat line
    let resp : Response := ⟨BitVec.ofNat 16 text.length, [text]⟩
    (s.content l .rx = line ++ 0x0D :: rest →
      ∃ ch, exec (.extract l cap) s = .next ((s.setLink l { k with rx := ch, pcr := satDec k.pcr }).respond resp) ∧
        Consumed s.cfg.linkCap k.rx ch rest) ∧
    (s.content l .rx = line ++ 0x00 :: rest →
      ∃ ch, exec (.extract l cap) s = .next ((s.setLink l { k with rx := ch }).respond resp) ∧
        Consumed s.cfg.linkCap k.rx ch rest) ∧
    (s.content l .rx = line →
      ∃ ch, exec (.extract l cap) s = .next ((s.setLink l { k with rx := ch }).respond resp) ∧
        Consumed s.cfg.linkCap k.rx ch [])

/-- R127, R128: SKIP consumes through the next CR and decrements the counter; where there is no CR it empties the channel
and zeroes the counter. -/
def Obligations.SkipDiscardsOneLine : Prop :=
  ∀ (s : State) (l : Link) (line rest : Text), s.wf → s.fault = none → 0x0D ∉ line →
    let k := s.link l
    (s.content l .rx = line ++ 0x0D :: rest →
      ∃ ch, exec (.skip l) s = .next ((s.setLink l { k with rx := ch, pcr := satDec k.pcr }).respond ⟨0x0000, []⟩) ∧
        Consumed s.cfg.linkCap k.rx ch rest) ∧
    (s.content l .rx = line →
      ∃ ch, exec (.skip l) s = .next ((s.setLink l { k with rx := ch, pcr := 0 }).respond ⟨0x0000, []⟩) ∧
        Consumed s.cfg.linkCap k.rx ch [])

/-! ### Command engine -/

/-- EXECUTE answers within its budget (R140, R141, R143 to R145, R147): after j services, j at most WAIT_BUDGET and all of
them on a Timeout, with Ok, Error or Timeout, and at most one text of at most SMALL_CAP - 1 bytes. Decoder, endpoint and
fault stay. Storage changes only where the command text and the received bytes were pushed. The services use up the listed
draws, and after them free values (`draws` and `serviced` are the model's own fields, log 5). -/
def Obligations.ExecuteAnswersWithinItsBudget : Prop :=
  ∀ (s : State) (x : Text), s.wf → s.fault = none →
    ∃ (r : CommandResult) (line : Option Text) (j : Nat) (m t : LinkState),
      exec (.execute x) s = .next
        (State.respond { s with m := m, t := t, draws := s.draws.drop j, serviced := s.serviced + j }
          ⟨r.code.setWidth 16 + (if line.isSome then 0x0100 else 0x0000), line.toList⟩) ∧
      r ≠ .data ∧ j ≤ s.cfg.waitBudget ∧ (r = .timeout → j = s.cfg.waitBudget) ∧
      (∀ y, line = some y → y.length ≤ s.cfg.smallCap - 1) ∧
      LinkState.wf s.cfg.linkCap m ∧ LinkState.wf s.cfg.linkCap t ∧
      Advanced s.cfg.linkCap x.length s.m.tx m.tx ∧
      Advanced s.cfg.linkCap (receivedM (s.drawsAhead j)) s.m.rx m.rx ∧
      t.tx.buf = s.t.tx.buf ∧ t.tx.head = s.t.tx.head ∧
      Advanced s.cfg.linkCap (receivedT (s.drawsAhead j)) s.t.rx t.rx

/-- R142, at the first increment: with the counter positive after the service, "OK" is tried first, then "ERROR"; a line
that begins with neither is captured as data and, with a budget of one, returned with Timeout. With the counter 0, no byte
of m.rx is consumed. -/
def Obligations.OkIsTriedBeforeError : Prop :=
  ∀ (s : State) (x : Text), s.wf → s.fault = none → 1 ≤ s.cfg.waitBudget →
    let esc := s.cfg.escByte
    let q := lastN (s.cfg.linkCap - 1) (s.content .m .rx ++ s.nextDraw.rxM)
    let n := satIncEach s.m.pcr s.nextDraw.rxM
    ∃ t, exec (.execute x) s = .next t ∧
      (n ≠ 0 → Found esc q tokenOK → t.responses = s.responses ++ [⟨0x0000, []⟩]) ∧
      (n ≠ 0 → ¬ Found esc q tokenOK → Found esc q tokenERROR → t.responses = s.responses ++ [⟨0x0001, []⟩]) ∧
      (n ≠ 0 → ¬ Found esc q tokenOK → ¬ Found esc q tokenERROR → s.cfg.waitBudget = 1 →
        ∀ line rest, noTerminator line → q = line ++ 0x0D :: rest →
          t.responses = s.responses ++ [⟨0x0102, [keptText s.cfg.smallCap line]⟩] ∧ t.content .m .rx = rest) ∧
      (n = 0 → s.cfg.waitBudget = 1 → t.responses = s.responses ++ [⟨0x0002, []⟩] ∧ t.content .m .rx = q)

/-- R144, the document's property: against a peer that never replies, EXECUTE returns Timeout after exactly WAIT_BUDGET
services, and no byte is lost when the traffic stays under capacity: every byte is in a channel or on the wire. The draws
ahead are listed ones or free values (log 5). -/
def Obligations.SilentPeerTimesOutWithoutLoss : Prop :=
  ∀ (s : State) (x : Text), s.wf → s.fault = none → s.m.pcr = 0 →
    (∀ d ∈ s.drawsAhead s.cfg.waitBudget, d.rxM = []) →
    (s.content .m .tx).length + x.length ≤ s.cfg.linkCap - 1 →
    (s.content .t .rx).length + receivedT (s.drawsAhead s.cfg.waitBudget) ≤ s.cfg.linkCap - 1 →
    ∃ m t, exec (.execute x) s = .next
        (State.respond { s with m := m, t := t, draws := s.draws.drop s.cfg.waitBudget,
                                serviced := s.serviced + s.cfg.waitBudget } ⟨0x0002, []⟩) ∧
      m.rx = s.m.rx ∧ m.pcr = 0 ∧
      m.wire ++ m.tx.content s.cfg.linkCap = s.m.wire ++ s.content .m .tx ++ x ∧
      t.wire ++ t.tx.content s.cfg.linkCap = s.t.wire ++ s.content .t .tx ∧
      t.rx.content s.cfg.linkCap =
        s.content .t .rx ++ ((s.drawsAhead s.cfg.waitBudget).map fun d => d.rxT).flatten

/-! ### Frame decoder -/

/-- R167: `DecStep` is the table, next state and scratch action, for every escape byte other than 'U'. (For 'U' the table's
ESC column and R162's test of 'U' differ, and the model follows R162: log 14.) -/
def Obligations.DecoderFollowsTheTable : Prop :=
  ∀ (cfg : Config) (d : Decoder) (b : Byte), cfg.escByte ≠ 0x55 →
    let k := byteClass cfg.escByte b
    let inIp := d.st = .haveCid ∨ d.st = .readingIp
    let text := k = .sp ∨ k = .u ∨ k = .pr
    let d' := (decStep cfg d b).2
    d'.st = frameTable d.st k ∧
    d'.cid = (if d.st = .sawU then b else d.cid) ∧
    d'.ip = (if d.st = .sawU then [] else if inIp ∧ (k = .u ∨ k = .pr) then satAppend d.ip b cfg.smallCap else d.ip) ∧
    d'.port = (if inIp ∧ k = .sp then [] else if d.st = .readingPort ∧ text then satAppend d.port b cfg.smallCap
      else d.port) ∧
    d'.pay = (if d.st = .readingPort ∧ k = .tab then [] else if d.st = .readingPayload ∧ text then
      satAppend d.pay b cfg.payloadCap else d.pay) ∧
    (decStep cfg d b).1 = (if d.st = .readingPayload ∧ k = .esc then some ⟨d.cid, d.ip, d.port, d.pay⟩ else none)

/-- R168, R170: TRY_RECV takes bytes from m.rx through `DecStep` until a frame completes or the channel is empty. A
completed frame is returned and copied into the endpoint; without one the response is 0x0000 and the endpoint stays. -/
def Obligations.TryRecvRunsTheDecoder : Prop :=
  ∀ s : State, s.wf → s.fault = none →
    let q := s.content .m .rx
    let p := decodeList s.cfg s.dec q
    ∃ ch, exec .tryRecv s = .next (State.respond
        { s with
          m := { s.m with
            rx := ch
            pcr := match s.cfg.crAccounting with
              | .explicit => s.m.pcr
              | .everyCr => satDecEach s.m.pcr (q.take (q.length - p.2.2.length)) }
          dec := p.2.1
          ep := match p.1 with
            | none => s.ep
            | some f => { s.ep with valid := true, cid := f.cid, ip := f.ip, port := f.port } }
        (match p.1 with
          | none => ⟨0x0000, []⟩
          | some f => ⟨0x0100 + f.cid.setWidth 16, [f.ip, f.port, f.payload]⟩)) ∧
      Consumed s.cfg.linkCap s.m.rx ch p.2.2 ∧ (p.1 = none → p.2.2 = []) ∧
      Decoder.wf s.cfg p.2.1

/-- A well-formed frame is delivered (R167 to R170, R172, R174): after bytes with no ESC, discarded in Idle, TRY_RECV
consumes the frame and leaves what follows it, the tag byte first. Each text is its field's first printable bytes within
the buffer. The escape byte is neither SPACE nor TAB, which end fields. The counter under EVERY_CR is stated by
TryRecvRunsTheDecoder. -/
def Obligations.WellFormedFrameIsDelivered : Prop :=
  ∀ (s : State) (before ip port pay after : Text) (cid : Byte), s.wf → s.fault = none → s.dec.st = .idle →
    let esc := s.cfg.escByte
    esc ≠ 0x20 → esc ≠ 0x09 → esc ∉ before → esc ∉ ip → 0x20 ∉ ip → esc ∉ port → 0x09 ∉ port → esc ∉ pay →
    s.content .m .rx = before ++ inboundFrame esc cid ip port pay ++ after →
    let ip' := keptText s.cfg.smallCap ip
    let port' := keptText s.cfg.smallCap port
    let pay' := keptText s.cfg.payloadCap pay
    ∃ ch n, exec .tryRecv s = .next (State.respond
        { s with
          m := { s.m with rx := ch, pcr := n }
          dec := ⟨.idle, cid, ip', port', pay'⟩
          ep := { s.ep with valid := true, cid := cid, ip := ip', port := port' } }
        ⟨0x0100 + cid.setWidth 16, [ip', port', pay']⟩) ∧
      Consumed s.cfg.linkCap s.m.rx ch after ∧ (s.cfg.crAccounting = .explicit → n = s.m.pcr)

/-- R171: a partial frame is parked. A TRY_RECV that delivers nothing leaves the decoder where the next one continues:
receiving the bytes in two parts gives what receiving them at once gives. -/
def Obligations.AParkedFrameContinues : Prop :=
  ∀ s t u v : State, s.wf → s.fault = none → u.wf → u.fault = none → v.wf → v.fault = none →
    exec .tryRecv s = .next t → t.responses = s.responses ++ [⟨0x0000, []⟩] →
    u.cfg = s.cfg → u.dec = t.dec → v.cfg = s.cfg → v.dec = s.dec →
    v.content .m .rx = s.content .m .rx ++ u.content .m .rx →
    ∃ u' v' r, exec .tryRecv u = .next u' ∧ exec .tryRecv v = .next v' ∧ u'.responses = u.responses ++ [r] ∧
      v'.responses = v.responses ++ [r] ∧ u'.dec = v'.dec ∧ u'.content .m .rx = v'.content .m .rx

/-- R176: a frame with no SPACE after its IP is not delivered. Its closing ESC aborts to Idle, so no reset is needed before
the next frame; every byte up to the ESC went to the IP text, and the endpoint stays. -/
def Obligations.FrameWithoutSpaceIsNotDelivered : Prop :=
  ∀ (s : State) (body tag : Text) (cid : Byte), s.wf → s.fault = none → s.dec.st = .idle →
    let esc := s.cfg.escByte
    esc ∉ body → 0x20 ∉ body → esc ∉ tag → s.content .m .rx = [esc, 0x55, cid] ++ body ++ [esc] ++ tag →
    ∃ t, exec .tryRecv s = .next t ∧ t.responses = s.responses ++ [⟨0x0000, []⟩] ∧ t.content .m .rx = [] ∧
      t.dec = { s.dec with st := .idle, cid := cid, ip := keptText s.cfg.smallCap body } ∧ t.ep = s.ep

/-! ### Frame encoder and raw send -/

/-- R190, R191, R193: with an endpoint learned, SEND_UDP writes `ESC 'U' cid ip ':' port ':' payload ESC 'E'` into m.tx,
the payload byte for byte, and changes nothing else; with none it raises EndpointUnset before any byte is pushed. -/
def Obligations.SendUdpWritesItsFrame : Prop :=
  ∀ (s : State) (x : Text), s.wf → s.fault = none →
    (s.ep.valid = true →
      ∃ ch, exec (.sendUdp x) s = .next (State.respond { s with m := { s.m with tx := ch } } ⟨0x0000, []⟩) ∧
        Pushed s.cfg.linkCap s.m.tx ch
          ([s.cfg.escByte, 0x55, s.ep.cid] ++ s.ep.ip ++ [0x3A] ++ s.ep.port ++ [0x3A] ++ x ++ [s.cfg.escByte, 0x45])) ∧
    (s.ep.valid = false → exec (.sendUdp x) s = .next { s with fault := some (.endpointUnset 0x5200) })

/-- R192: SEND_RAW writes its text into the TX channel of the link verbatim, and changes nothing else. -/
def Obligations.SendRawWritesItsText : Prop :=
  ∀ (s : State) (l : Link) (x : Text), s.wf → s.fault = none →
    ∃ ch, exec (.sendRaw l x) s = .next ((s.setLink l { s.link l with tx := ch }).respond ⟨0x0000, []⟩) ∧
      Pushed s.cfg.linkCap (s.link l).tx ch x

/-- R194, at the default escape byte: the frame SEND_UDP writes into an empty m.tx, its two separators translated to SPACE
and TAB, decodes to the payload and the endpoint that sent it, and the endpoint stays. -/
def Obligations.UdpRoundTrip : Prop :=
  ∀ (s u : State) (x : Text), s.wf → s.fault = none → s.cfg.escByte = 0x1B → s.ep.valid = true →
    (∀ b ∈ s.ep.ip, isPrintable b = true ∧ b ≠ 0x20) → (∀ b ∈ s.ep.port, isPrintable b = true) →
    (∀ b ∈ x, isPrintable b = true) → x.length ≤ s.cfg.payloadCap - 1 →
    s.content .m .tx = [] → 7 + s.ep.ip.length + s.ep.port.length + x.length ≤ s.cfg.linkCap - 1 →
    u.wf → u.fault = none → u.cfg = s.cfg → u.ep = s.ep → u.dec.st = .idle →
    ∃ t, exec (.sendUdp x) s = .next t ∧
      (u.content .m .rx =
          ((t.content .m .tx).set (3 + s.ep.ip.length) 0x20).set (4 + s.ep.ip.length + s.ep.port.length) 0x09 →
        ∃ v, exec .tryRecv u = .next v ∧
          v.responses = u.responses ++ [⟨0x0100 + s.ep.cid.setWidth 16, [s.ep.ip, s.ep.port, x]⟩] ∧
          v.ep = u.ep ∧ v.content .m .rx = [0x45])

/-! ### Link control -/

/-- R200, R201: RESET_LINK zeroes the indices of both channels of its link and its counter, and for the module link clears
the decoder. Storage, wire traces, the endpoint and the other link stay. It is stated for every state. -/
def Obligations.ResetLinkClearsItsLink : Prop :=
  ∀ s : State, s.fault = none →
    exec (.resetLink .m) s = .next (State.respond
      { s with
        m := { s.m with rx := ⟨s.m.rx.buf, 0, 0⟩, tx := ⟨s.m.tx.buf, 0, 0⟩, pcr := 0 }
        dec := ⟨.idle, 0x00, [], [], []⟩ } ⟨0x0000, []⟩) ∧
    exec (.resetLink .t) s = .next (State.respond
      { s with t := { s.t with rx := ⟨s.t.rx.buf, 0, 0⟩, tx := ⟨s.t.tx.buf, 0, 0⟩, pcr := 0 } } ⟨0x0000, []⟩)

/-! ### Rules of the whole machine -/

/-- R49, the `w` entries: a command leaves every part of the state it may not write as it was, in every state. -/
def Obligations.CommandsWriteOnlyTheirParts : Prop :=
  ∀ (i : Instr) (s t : State), exec i s = .next t →
    ∀ p : Part, mayWrite s.cfg.crAccounting i p = false → samePart s t p

/-- R32: the links share no state. A command that acts on one link leaves the other as it was. What SERVICE leaves of a
link depends on that link, the parameters and the draws alone. -/
def Obligations.LinksShareNoState : Prop :=
  (∀ (i : Instr) (l l' : Link) (s t : State), Machine.Instr.oneLink i = some l → l' ≠ l → exec i s = .next t →
    t.link l' = s.link l') ∧
  ∀ (s s' t t' : State) (l : Link), s.cfg = s'.cfg → s.draws = s'.draws → s.serviced = s'.serviced →
    s.link l = s'.link l → exec .service s = .next t → exec .service s' = .next t' → t.link l = t'.link l

/-- The block with ring buffers does what the same block with plain byte queues does: every command from every well-formed
state with no fault recorded (R33, R100 to R108, R120 to R128, R140, R168, R190 to R200). -/
def Obligations.RingBuffersRefineQueues : Prop :=
  ∀ (i : Instr) (s : State), s.wf → s.fault = none → ∃ t, exec i s = .next t ∧ t.wf ∧ t.abs = QState.exec i s.abs

/-- Storage outside the contents is not observable (R33, R62): two well-formed states that hold the same step to states
that hold the same, or stop alike. -/
def Obligations.StorageOutsideContentIsNotObservable : Prop :=
  ∀ s s' : State, s.wf → s'.wf → s.abs = s'.abs →
    (∃ r, step s = .fault r ∧ step s' = .fault r) ∨
    ∃ t t', step s = .next t ∧ step s' = .next t' ∧ t.abs = t'.abs
end

