-- ==== Sys2Proof/Laws/Storage.lean ====
section
/-! SUPPORT. The laws of storage: read after write, and the canonical form kept by every write. -/

namespace Sys2Proof.Machine

@[simp] theorem Memory.read_nil (i : Nat) : Memory.read [] i = none := rfl

theorem Memory.read_write_same (mem : Memory) (i : Nat) (v : Byte) :
    Memory.read (Memory.write mem i v) i = some v := by
  induction mem with
  | nil => simp [Memory.write, Memory.read]
  | cons c rest ih =>
    unfold Memory.write
    split_ifs with h1 h2
    · simp [Memory.read]
    · simp [Memory.read]
    · simp [Memory.read, ih, Ne.symm h2]

theorem Memory.read_write_other (mem : Memory) (i j : Nat) (v : Byte) (h : j ≠ i) :
    Memory.read (Memory.write mem i v) j = Memory.read mem j := by
  induction mem with
  | nil => simp [Memory.write, Memory.read, Ne.symm h]
  | cons c rest ih =>
    unfold Memory.write
    split_ifs with h1 h2
    · simp [Memory.read, Ne.symm h]
    · subst h2; simp [Memory.read, Ne.symm h]
    · simp [Memory.read, ih]

theorem Memory.mem_write (mem : Memory) (i : Nat) (v : Byte) (c : Host.Cell) (h : c ∈ Memory.write mem i v) :
    c = (i, v) ∨ c ∈ mem := by
  induction mem with
  | nil => simpa [Memory.write] using h
  | cons d rest ih =>
    unfold Memory.write at h
    split_ifs at h with h1 h2
    · simpa using h
    · rcases List.mem_cons.1 h with h | h
      · exact .inl h
      · exact .inr (List.mem_cons_of_mem _ h)
    · rcases List.mem_cons.1 h with h | h
      · exact .inr (h ▸ List.mem_cons_self)
      · exact (ih h).imp_right (List.mem_cons_of_mem _)

/-- A write keeps the canonical form. -/
theorem Memory.write_wf (mem : Memory) (i : Nat) (v : Byte) (h : Memory.wf mem) : Memory.wf (Memory.write mem i v) := by
  induction mem with
  | nil => simp [Memory.write, Memory.wf]
  | cons c rest ih =>
    have hc := List.pairwise_cons.1 h
    unfold Memory.write
    split_ifs with h1 h2
    · refine List.pairwise_cons.2 ⟨fun d hd => ?_, h⟩
      rcases List.mem_cons.1 hd with rfl | hd
      · exact h1
      · exact Nat.lt_trans h1 (hc.1 d hd)
    · exact List.pairwise_cons.2 ⟨fun d hd => h2 ▸ hc.1 d hd, hc.2⟩
    · refine List.pairwise_cons.2 ⟨fun d hd => ?_, ih hc.2⟩
      rcases Memory.mem_write rest i v d hd with rfl | hd
      · exact Nat.lt_of_le_of_ne (Nat.le_of_not_lt h1) (Ne.symm h2)
      · exact hc.1 d hd

/-- A write within the slots leaves every listed slot within them. -/
theorem Memory.write_lt (mem : Memory) (i cap : Nat) (v : Byte) (hi : i < cap) (h : ∀ c ∈ mem, c.1 < cap) :
    ∀ c ∈ Memory.write mem i v, c.1 < cap := by
  intro c hc
  rcases Memory.mem_write mem i v c hc with rfl | hc
  · exact hi
  · exact h c hc

/-- Everything `chRead` can do. -/
theorem chRead_cases (cap : Nat) (ch : Channel) (i : Nat) :
    (cap ≤ i ∧ chRead cap ch i = .error .noSuchSlot) ∨
    (i < cap ∧ Memory.read ch.buf i = none ∧ chRead cap ch i = .error .unwrittenSlot) ∨
    (i < cap ∧ ∃ b, Memory.read ch.buf i = some b ∧ chRead cap ch i = .ok b) := by
  unfold chRead
  by_cases h : i < cap
  · cases hr : Memory.read ch.buf i <;> simp [h]
  · exact .inl ⟨Nat.le_of_not_lt h, by simp [h]⟩

theorem chRead_ok {cap : Nat} {ch : Channel} {i : Nat} {b : Byte} (hi : i < cap) (h : Memory.read ch.buf i = some b) :
    chRead cap ch i = .ok b := by simp [chRead, hi, h]

theorem chWrite_ok {cap : Nat} (ch : Channel) {i : Nat} (v : Byte) (hi : i < cap) :
    chWrite cap ch i v = .ok { ch with buf := Memory.write ch.buf i v } := by simp [chWrite, hi]

/-! ### The bind of a step that may stop -/

@[simp] theorem except_bind_ok {α β : Type} (a : α) (f : α → Except Fault β) : (Except.ok a >>= f) = f a := rfl

@[simp] theorem except_bind_error {α β : Type} (e : Fault) (f : α → Except Fault β) :
    ((Except.error e : Except Fault α) >>= f) = Except.error e := rfl

/-- Peels one computation off a bind that succeeds. -/
theorem except_bind_eq_ok {α β : Type} {x : Except Fault α} {f : α → Except Fault β} {r : β} (h : x >>= f = .ok r) :
    ∃ a, x = .ok a ∧ f a = .ok r := by
  cases x with
  | error e => cases h
  | ok a => exact ⟨a, rfl, h⟩

end Sys2Proof.Machine
end

