-- ==== Sys2Proof/Laws/Channel.lean ====
section
/-! SUPPORT. A well-formed ring buffer behaves as the byte list it holds (R33, R100, R102, R106, R107, R110). -/

namespace Sys2Proof.Machine

/-! ### Index arithmetic -/

theorem modSub_add {cap t n : Nat} (ht : t < cap) (hn : n < cap) : modSub ((t + n) % cap) t cap = n := by
  unfold modSub
  rw [Nat.mod_eq_of_lt ht]
  by_cases h : t + n < cap
  · rw [Nat.mod_eq_of_lt h, show t + n + (cap - t) = n + cap by omega, Nat.add_mod_right, Nat.mod_eq_of_lt hn]
  · have : (t + n) % cap = t + n - cap := by
      rw [Nat.mod_eq_sub_mod (by omega), Nat.mod_eq_of_lt (by omega)]
    rw [this, show t + n - cap + (cap - t) = n by omega, Nat.mod_eq_of_lt hn]

theorem add_modSub {cap h t : Nat} (hh : h < cap) (ht : t < cap) : (t + modSub h t cap) % cap = h := by
  unfold modSub
  rw [Nat.mod_eq_of_lt ht, Nat.add_mod_mod, show t + (h + (cap - t)) = h + cap by omega, Nat.add_mod_right,
    Nat.mod_eq_of_lt hh]

theorem modSub_lt {cap h t : Nat} (hc : 0 < cap) : modSub h t cap < cap := Nat.mod_lt _ hc

theorem slot_inj {cap t i j : Nat} (hi : i < cap) (hj : j < cap) (h : (t + i) % cap = (t + j) % cap) : i = j := by
  have := Nat.ModEq.add_left_cancel' t (show (t + i) ≡ (t + j) [MOD cap] from h)
  unfold Nat.ModEq at this
  rwa [Nat.mod_eq_of_lt hi, Nat.mod_eq_of_lt hj] at this

theorem nextSlot_add (cap t i : Nat) : nextSlot cap ((t + i) % cap) = (t + (i + 1)) % cap := by
  simp [nextSlot, Nat.add_assoc]

theorem add_slot (cap t i k : Nat) : ((t + i) % cap + k) % cap = (t + (i + k)) % cap := by
  simp [Nat.add_assoc]

/-! ### What a channel holds -/

/-- The channel is well-formed and holds the bytes q. -/
def Holds (cap : Nat) (ch : Channel) (q : Text) : Prop := Channel.wf cap ch ∧ ch.content cap = q

theorem filterMap_range_eq {n : Nat} {f : Nat → Option Byte} {q : Text} (hl : q.length = n)
    (h : ∀ i < n, f i = q[i]?) : (List.range n).filterMap f = q := by
  subst hl
  induction q using List.reverseRecOn with
  | nil => rfl
  | append_singleton q b ih =>
    rw [List.length_append, List.length_singleton, List.range_succ, List.filterMap_append, ih]
    · have := h q.length (by simp)
      simp [this]
    · intro i hi
      rw [h i (by simp; omega), List.getElem?_append_left hi]

theorem filterMap_range_length {n : Nat} {f : Nat → Option Byte} (h : ∀ i < n, (f i).isSome) :
    ((List.range n).filterMap f).length = n ∧ ∀ i < n, f i = ((List.range n).filterMap f)[i]? := by
  induction n with
  | zero => simp
  | succ n ih =>
    have ⟨hl, hr⟩ := ih fun i hi => h i (by omega)
    obtain ⟨b, hb⟩ := Option.isSome_iff_exists.1 (h n (by omega))
    rw [List.range_succ, List.filterMap_append]
    refine ⟨by simp [hl, hb], fun i hi => ?_⟩
    by_cases hin : i < n
    · rw [List.getElem?_append_left (by omega)]; exact hr i hin
    · obtain rfl : i = n := by omega
      rw [List.getElem?_append_right (by omega)]; simp [hl, hb]

/-- What holding means, slot by slot. -/
theorem holds_iff {cap : Nat} {ch : Channel} {q : Text} :
    Holds cap ch q ↔ Memory.wf ch.buf ∧ (∀ x ∈ ch.buf, x.1 < cap) ∧ ch.tail < cap ∧ q.length < cap ∧
      ch.head = (ch.tail + q.length) % cap ∧ ∀ i < q.length, Memory.read ch.buf ((ch.tail + i) % cap) = q[i]? := by
  constructor
  · rintro ⟨⟨hm, hb, hh, ht, hr⟩, rfl⟩
    have ⟨hl, hg⟩ := filterMap_range_length (f := fun i => Memory.read ch.buf ((ch.tail + i) % cap)) hr
    have hlen : (ch.content cap).length = ch.count cap := hl
    refine ⟨hm, hb, ht, ?_, ?_, ?_⟩
    · rw [hlen]; exact modSub_lt (by omega)
    · rw [hlen]; exact (add_modSub hh ht).symm
    · rw [hlen]; exact hg
  · rintro ⟨hm, hb, ht, hn, hh, hr⟩
    have hcnt : ch.count cap = q.length := by rw [Channel.count, hh]; exact modSub_add ht hn
    refine ⟨⟨hm, hb, hh ▸ Nat.mod_lt _ (by omega), ht, ?_⟩, ?_⟩
    · intro i hi; rw [hr i (by omega)]; simp; omega
    · rw [Channel.content, hcnt]; exact filterMap_range_eq rfl hr

theorem Channel.wf_holds {cap : Nat} {ch : Channel} (h : Channel.wf cap ch) : Holds cap ch (ch.content cap) := ⟨h, rfl⟩

theorem Holds.length_lt {cap : Nat} {ch : Channel} {q : Text} (h : Holds cap ch q) : q.length < cap := (holds_iff.1 h).2.2.2.1

theorem Holds.count_eq {cap : Nat} {ch : Channel} {q : Text} (h : Holds cap ch q) : ch.count cap = q.length := by
  obtain ⟨-, -, ht, hn, hh, -⟩ := holds_iff.1 h
  rw [Channel.count, hh]; exact modSub_add ht hn

/-- A channel is empty exactly when head equals tail (R34). -/
theorem Holds.head_eq_tail_iff {cap : Nat} {ch : Channel} {q : Text} (h : Holds cap ch q) : ch.head = ch.tail ↔ q = [] := by
  obtain ⟨-, -, ht, hn, hh, -⟩ := holds_iff.1 h
  constructor
  · intro he
    have : (ch.tail + q.length) % cap = (ch.tail + 0) % cap := by
      rw [← hh, he, Nat.add_zero, Nat.mod_eq_of_lt ht]
    exact List.length_eq_zero_iff.1 (slot_inj hn (by omega) this)
  · rintro rfl; simpa [Nat.mod_eq_of_lt ht] using hh

theorem Holds.avail_eq {cap : Nat} {ch : Channel} {q : Text} (h : Holds cap ch q) : ch.avail = !q.isEmpty := by
  have := h.head_eq_tail_iff
  cases q <;> simp_all [Channel.avail]

/-! ### Push and pop -/

/-- Everything `push` does to a well-formed channel: the byte joins the content, the oldest one leaving when the channel
is full (R100, R106). -/
theorem push_holds {cap : Nat} {ch : Channel} {q : Text} (b : Byte) (hcap : 2 ≤ cap) (h : Holds cap ch q) :
    ∃ ch', push cap ch b = .ok ch' ∧ Holds cap ch' (lastN (cap - 1) (q ++ [b])) ∧
      ch'.head = nextSlot cap ch.head ∧ ch'.buf = Memory.write ch.buf ch.head b := by
  obtain ⟨hm, hb, ht, hn, hh, hr⟩ := holds_iff.1 h
  have hhead : ch.head < cap := by rw [hh]; exact Nat.mod_lt _ (by omega)
  have hnext : nextSlot cap ch.head = (ch.tail + (q.length + 1)) % cap := by rw [hh, nextSlot_add]
  have hread : ∀ i < q.length, Memory.read (Memory.write ch.buf ch.head b) ((ch.tail + i) % cap) = q[i]? := by
    intro i hi
    rw [Memory.read_write_other _ _ _ _ ?_, hr i hi]
    rw [hh]; intro he
    have := slot_inj (by omega) hn he; omega
  have hlast : Memory.read (Memory.write ch.buf ch.head b) ((ch.tail + q.length) % cap) = some b := by
    rw [← hh]; exact Memory.read_write_same _ _ _
  refine ⟨_, by rw [push, chWrite_ok _ _ hhead, except_bind_ok], ?_, rfl, rfl⟩
  by_cases hfull : q.length + 1 < cap
  · have hne : nextSlot cap ch.head ≠ ch.tail := by
      rw [hnext]; intro he
      have := slot_inj (t := ch.tail) (j := 0) hfull (by omega) (by rw [he, Nat.add_zero, Nat.mod_eq_of_lt ht])
      omega
    have : lastN (cap - 1) (q ++ [b]) = q ++ [b] := by
      rw [lastN, show (q ++ [b]).length - (cap - 1) = 0 by simp; omega]; rfl
    rw [this]
    refine holds_iff.2 ⟨Memory.write_wf _ _ _ hm, Memory.write_lt _ _ _ _ hhead hb, ?_, by simpa using hfull, ?_, ?_⟩
    · simpa [hne] using ht
    · simp only [hne, if_false, List.length_append, List.length_singleton]; exact hnext
    · intro i hi
      simp only [hne, if_false]
      rw [List.length_append, List.length_singleton] at hi
      by_cases hic : i < q.length
      · rw [hread i hic, List.getElem?_append_left hic]
      · obtain rfl : i = q.length := by omega
        rw [hlast]; simp
  · have heq : nextSlot cap ch.head = ch.tail := by
      rw [hnext, show ch.tail + (q.length + 1) = ch.tail + cap by omega, Nat.add_mod_right, Nat.mod_eq_of_lt ht]
    obtain ⟨x, xs, rfl⟩ : ∃ x xs, q = x :: xs := by
      cases q with
      | nil => simp at hfull; omega
      | cons x xs => exact ⟨x, xs, rfl⟩
    simp only [List.length_cons] at hfull hn hread hlast hr
    have : lastN (cap - 1) (x :: xs ++ [b]) = xs ++ [b] := by
      rw [lastN, show (x :: xs ++ [b]).length - (cap - 1) = 1 by simp; omega]; rfl
    rw [this]
    have hnt : nextSlot cap ch.tail = (ch.tail + 1) % cap := rfl
    refine holds_iff.2 ⟨Memory.write_wf _ _ _ hm, Memory.write_lt _ _ _ _ hhead hb, ?_, by simp; omega, ?_, ?_⟩
    · simp only [heq, if_true]; exact Nat.mod_lt _ (by omega)
    · simp only [heq, if_true, hnt, List.length_append, List.length_singleton]
      rw [add_slot, show ch.tail + (1 + (xs.length + 1)) = ch.tail + cap by omega, Nat.add_mod_right,
        Nat.mod_eq_of_lt ht]
    · intro i hi
      simp only [heq, if_true, hnt]
      rw [List.length_append, List.length_singleton] at hi
      rw [add_slot]
      by_cases hic : i < xs.length
      · rw [show ch.tail + (1 + i) = ch.tail + (i + 1) by omega, hread (i + 1) (by omega),
          List.getElem?_append_left hic]; simp
      · obtain rfl : i = xs.length := by omega
        rw [show ch.tail + (1 + xs.length) = ch.tail + (xs.length + 1) by omega, hlast]; simp

theorem pop_nil {cap : Nat} {ch : Channel} (h : Holds cap ch []) : pop cap ch = .ok (none, ch) := by
  simp [pop, h.head_eq_tail_iff.2 rfl]

/-- Everything `pop` does to a well-formed channel that is not empty (R102). -/
theorem pop_cons {cap : Nat} {ch : Channel} {b : Byte} {q : Text} (h : Holds cap ch (b :: q)) :
    pop cap ch = .ok (some b, { ch with tail := nextSlot cap ch.tail }) ∧
      Holds cap { ch with tail := nextSlot cap ch.tail } q := by
  obtain ⟨hm, hb, ht, hn, hh, hr⟩ := holds_iff.1 h
  have hne : ¬ ch.head = ch.tail := by rw [h.head_eq_tail_iff]; simp
  have h0 := hr 0 (by simp)
  rw [Nat.add_zero, Nat.mod_eq_of_lt ht] at h0
  refine ⟨by simp [pop, hne, chRead_ok ht h0], holds_iff.2 ⟨hm, hb, Nat.mod_lt _ (by omega), ?_, ?_, ?_⟩⟩
  · simp at hn ⊢; omega
  · simp only [hh, nextSlot, add_slot, List.length_cons]; congr 1; omega
  · intro i hi
    have := hr (i + 1) (by simpa using hi)
    simp only [nextSlot, add_slot]
    rw [show ch.tail + (1 + i) = ch.tail + (i + 1) by omega, this]; simp

/-! ### Strings -/

theorem lastN_length (n : Nat) (x : Text) : (lastN n x).length = min x.length n := by
  simp [lastN]; omega

theorem lastN_append_lastN (n : Nat) (x y : Text) : lastN n (lastN n x ++ y) = lastN n (x ++ y) := by
  simp only [lastN, List.drop_append, List.length_append, List.length_drop, List.drop_drop]
  congr 1
  · congr 1; omega
  · congr 1; omega

theorem lastN_of_le {n : Nat} {x : Text} (h : x.length ≤ n) : lastN n x = x := by
  simp [lastN, Nat.sub_eq_zero_of_le h]

/-- Pushing a list leaves the last LINK_CAP - 1 bytes of what was held and what was pushed (R107). -/
theorem pushString_holds {cap : Nat} {ch : Channel} {q : Text} (x : Text) (hcap : 2 ≤ cap) (h : Holds cap ch q) :
    ∃ ch', pushString cap ch x = .ok ch' ∧ Holds cap ch' (lastN (cap - 1) (q ++ x)) := by
  induction x generalizing ch q with
  | nil =>
    refine ⟨ch, rfl, ?_⟩
    have := h.length_lt
    rwa [List.append_nil, lastN_of_le (by omega)]
  | cons b rest ih =>
    obtain ⟨ch₁, h₁, hc₁, -⟩ := push_holds b hcap h
    obtain ⟨ch₂, h₂, hc₂⟩ := ih hc₁
    refine ⟨ch₂, by rw [pushString, h₁, except_bind_ok, h₂], ?_⟩
    rwa [lastN_append_lastN, List.append_assoc, List.singleton_append] at hc₂

/-! ### Reading from a working position -/

/-- Moving tail forward by k positions of the content drops k bytes. -/
theorem Holds.drop {cap : Nat} {ch : Channel} {q : Text} (h : Holds cap ch q) {k : Nat} (hk : k ≤ q.length) :
    Holds cap { ch with tail := (ch.tail + k) % cap } (q.drop k) := by
  obtain ⟨hm, hb, ht, hn, hh, hr⟩ := holds_iff.1 h
  refine holds_iff.2 ⟨hm, hb, Nat.mod_lt _ (by omega), by simp; omega, ?_, ?_⟩
  · simp only [hh, add_slot, List.length_drop]; congr 2; omega
  · intro i hi
    simp only [List.length_drop] at hi
    simp only [add_slot, List.getElem?_drop]
    exact hr (k + i) (by omega)

theorem Holds.rem_eq {cap : Nat} {ch : Channel} {q : Text} (h : Holds cap ch q) {k : Nat} (hk : k ≤ q.length) :
    ch.rem cap ((ch.tail + k) % cap) = q.length - k := by
  have := (h.drop hk).count_eq
  rw [List.length_drop] at this
  exact this

theorem Holds.read {cap : Nat} {ch : Channel} {q : Text} (h : Holds cap ch q) {k : Nat} {b : Byte} {r : Text}
    (hk : q.drop k = b :: r) : chRead cap ch ((ch.tail + k) % cap) = .ok b := by
  obtain ⟨-, -, ht, hn, hh, hr⟩ := holds_iff.1 h
  have hlen : k < q.length := by
    by_contra hge
    rw [List.drop_eq_nil_of_le (by omega)] at hk; cases hk
  refine chRead_ok (Nat.mod_lt _ (by omega)) ?_
  rw [hr k hlen, ← List.head?_drop, hk]; rfl

/-- The span of n bytes from position k of the content. -/
theorem Holds.readSpan {cap : Nat} {ch : Channel} {q : Text} (h : Holds cap ch q) {k n : Nat} (hkn : k + n ≤ q.length) :
    Machine.readSpan cap ch ((ch.tail + k) % cap) n = .ok ((q.drop k).take n) := by
  induction n generalizing k with
  | zero => simp [Machine.readSpan]
  | succ n ih =>
    have hd : q.drop k = q[k] :: q.drop (k + 1) := List.drop_eq_getElem_cons (by omega)
    rw [Machine.readSpan, h.read hd, except_bind_ok, nextSlot_add, ih (by omega), except_bind_ok, hd, List.take_succ_cons]

end Sys2Proof.Machine
end

