-- ==== Sys2Proof/Laws/Link.lean ====
section
/-! SUPPORT. What the link primitives do to a well-formed link: receiving, transmitting, taking and one service
(R101, R102, R108, R110). Each law gives the next link, its content, and which storage it writes. -/

namespace Sys2Proof.Machine

/-! ### Storage written by pushes -/

/-- Pushing a list moves head past it and writes no other slot. -/
theorem pushString_frame {cap : Nat} {ch : Channel} {q : Text} (x : Text) (hcap : 2 ≤ cap) (h : Holds cap ch q) {ch' : Channel}
    (hp : pushString cap ch x = .ok ch') :
    ch'.head = (ch.head + x.length) % cap ∧
      ∀ a, ¬ PushedSlot cap ch x.length a → Memory.read ch'.buf a = Memory.read ch.buf a := by
  induction x generalizing ch q with
  | nil =>
    cases hp
    obtain ⟨⟨-, -, hh, -, -⟩, -⟩ := h
    exact ⟨by simp [Nat.mod_eq_of_lt hh], fun _ _ => rfl⟩
  | cons b rest ih =>
    obtain ⟨ch₁, h₁, hc₁, hhd, hbuf⟩ := push_holds b hcap h
    rw [pushString, h₁, except_bind_ok] at hp
    obtain ⟨hh', hr'⟩ := ih hc₁ hp
    have hlt : ch.head < cap := h.1.2.2.1
    refine ⟨?_, fun a ha => ?_⟩
    · rw [hh', hhd, nextSlot, add_slot, List.length_cons]; congr 1; omega
    · rw [hr' a, hbuf, Memory.read_write_other]
      · rintro rfl
        exact ha ⟨0, by simp, by simp [Nat.mod_eq_of_lt hlt]⟩
      · rintro ⟨i, hi, rfl⟩
        exact ha ⟨i + 1, by simpa using hi, by rw [hhd, nextSlot, add_slot]; congr 1; omega⟩

theorem advanced_zero {cap : Nat} {ch ch' : Channel} (hh : ch.head < cap) (hb : ch'.buf = ch.buf) (he : ch'.head = ch.head) :
    Advanced cap 0 ch ch' := ⟨by rw [he, Nat.add_zero, Nat.mod_eq_of_lt hh], fun _ _ => by rw [hb]⟩

theorem Advanced.trans {cap n k : Nat} {ch ch₁ ch₂ : Channel} (h₁ : Advanced cap n ch ch₁) (h₂ : Advanced cap k ch₁ ch₂) :
    Advanced cap (n + k) ch ch₂ := by
  refine ⟨by rw [h₂.1, h₁.1, add_slot], fun a ha => ?_⟩
  rw [h₂.2 a, h₁.2 a]
  · rintro ⟨i, hi, rfl⟩; exact ha ⟨i, by omega, rfl⟩
  · rintro ⟨i, hi, rfl⟩; exact ha ⟨n + i, by omega, by rw [h₁.1, add_slot]⟩

theorem pushString_advanced {cap : Nat} {ch ch' : Channel} {q : Text} {x : Text} (hcap : 2 ≤ cap) (h : Holds cap ch q)
    (hp : pushString cap ch x = .ok ch') : Advanced cap x.length ch ch' := pushString_frame x hcap h hp

/-! ### A link and the queues it holds -/

/-- The link is well-formed and holds what the queue link says. -/
def LinkIs (cap : Nat) (k : LinkState) (q : QLink) : Prop := LinkState.wf cap k ∧ k.abs cap = q

theorem linkIs_iff {cap : Nat} {k : LinkState} {q : QLink} :
    LinkIs cap k q ↔ Holds cap k.rx q.rx ∧ Holds cap k.tx q.tx ∧ k.pcr = q.pcr ∧ k.wire = q.wire := by
  constructor
  · rintro ⟨⟨hr, ht⟩, rfl⟩
    exact ⟨⟨hr, rfl⟩, ⟨ht, rfl⟩, rfl, rfl⟩
  · rintro ⟨⟨hr, er⟩, ⟨ht, et⟩, ep, ew⟩
    refine ⟨⟨hr, ht⟩, ?_⟩
    cases q; simp_all [LinkState.abs]

theorem LinkState.wf_is {cap : Nat} {k : LinkState} (h : LinkState.wf cap k) : LinkIs cap k (k.abs cap) := ⟨h, rfl⟩

theorem satIncEach_append (c : BitVec 16) (x y : Text) : satIncEach c (x ++ y) = satIncEach (satIncEach c x) y := by
  induction x generalizing c with
  | nil => rfl
  | cons b x ih => simp [satIncEach, ih]

/-! ### Receiving -/

/-- Everything `rxPush` does to a well-formed link (R101). -/
theorem rxPush_is {cfg : Config} {k : LinkState} {q : QLink} (b : Byte) (hcap : 2 ≤ cfg.linkCap) (h : LinkIs cfg.linkCap k q) :
    ∃ rx, rxPush cfg k b = .ok { k with rx := rx, pcr := satIncEach k.pcr [b] } ∧
      push cfg.linkCap k.rx b = .ok rx ∧
      LinkIs cfg.linkCap { k with rx := rx, pcr := satIncEach k.pcr [b] } (q.receive cfg [b]) := by
  obtain ⟨hr, ht, hp, hw⟩ := linkIs_iff.1 h
  obtain ⟨rx, h₁, hc, -⟩ := push_holds b hcap hr
  refine ⟨rx, by simp [rxPush, h₁, satIncEach], h₁, linkIs_iff.2 ⟨hc, ht, ?_, hw⟩⟩
  simp [QLink.receive, hp]

theorem pushString_cons_ok {cap : Nat} {ch ch₁ ch₂ : Channel} {b : Byte} {x : Text} (h₁ : push cap ch b = .ok ch₁)
    (h₂ : pushString cap ch₁ x = .ok ch₂) : pushString cap ch (b :: x) = .ok ch₂ := by
  rw [pushString, h₁, except_bind_ok, h₂]

/-- Everything `receive` does to a well-formed link: its RX channel is the one `pushString` leaves. -/
theorem receive_is {cfg : Config} {k : LinkState} {q : QLink} (x : Text) (hcap : 2 ≤ cfg.linkCap) (h : LinkIs cfg.linkCap k q) :
    ∃ rx, receive cfg k x = .ok { k with rx := rx, pcr := satIncEach k.pcr x } ∧
      pushString cfg.linkCap k.rx x = .ok rx ∧
      LinkIs cfg.linkCap { k with rx := rx, pcr := satIncEach k.pcr x } (q.receive cfg x) := by
  induction x generalizing k q with
  | nil =>
    refine ⟨k.rx, rfl, rfl, ?_⟩
    obtain ⟨hr, ht, hp, hw⟩ := linkIs_iff.1 h
    have := hr.length_lt
    refine linkIs_iff.2 ⟨?_, ht, hp, hw⟩
    simpa only [QLink.receive, qAppend, List.append_nil, lastN_of_le (show q.rx.length ≤ cfg.linkCap - 1 by omega)] using hr
  | cons b x ih =>
    obtain ⟨rx₁, h₁, hp₁, hc₁⟩ := rxPush_is b hcap h
    obtain ⟨rx₂, h₂, hp₂, hc₂⟩ := ih hc₁
    refine ⟨rx₂, ?_, pushString_cons_ok hp₁ hp₂, ?_⟩
    · rw [receive, h₁, except_bind_ok, h₂]; rfl
    · have hq : (q.receive cfg [b]).receive cfg x = q.receive cfg (b :: x) := by
        simp [QLink.receive, qAppend, lastN_append_lastN, satIncEach]
      rw [← hq]; exact hc₂

/-! ### Transmitting -/

theorem txPop_nil {cfg : Config} {k : LinkState} (h : Holds cfg.linkCap k.tx []) : txPop cfg k = .ok (none, k) := by
  rw [txPop, pop_nil h]; rfl

theorem txPop_cons {cfg : Config} {k : LinkState} {b : Byte} {c : Text} (h : Holds cfg.linkCap k.tx (b :: c)) :
    ∃ tx, txPop cfg k = .ok (some b, { k with tx := tx }) ∧ Holds cfg.linkCap tx c ∧
      tx.buf = k.tx.buf ∧ tx.head = k.tx.head := by
  obtain ⟨h₁, hc⟩ := pop_cons h
  exact ⟨_, by rw [txPop, h₁]; rfl, hc, rfl, rfl⟩

/-- Everything `transmit` does to a well-formed link: the front bytes go to the wire, and no storage is written. -/
theorem transmit_is {cfg : Config} {k : LinkState} {c : Text} (n : Nat) (h : Holds cfg.linkCap k.tx c) :
    ∃ tx, transmit cfg k n = .ok { k with tx := tx, wire := k.wire ++ c.take n } ∧ Holds cfg.linkCap tx (c.drop n) ∧
      tx.buf = k.tx.buf ∧ tx.head = k.tx.head := by
  induction n generalizing k c with
  | zero => exact ⟨k.tx, by simp [transmit], by simpa using h, rfl, rfl⟩
  | succ n ih =>
    cases c with
    | nil => exact ⟨k.tx, by simp [transmit, txPop_nil h], by simpa using h, rfl, rfl⟩
    | cons b c =>
      obtain ⟨tx₁, h₁, hc₁, hb₁, hh₁⟩ := txPop_cons h
      obtain ⟨tx₂, h₂, hc₂, hb₂, hh₂⟩ := ih (k := { k with tx := tx₁, wire := k.wire ++ [b] }) hc₁
      refine ⟨tx₂, ?_, by simpa using hc₂, by rw [hb₂]; exact hb₁, by rw [hh₂]; exact hh₁⟩
      rw [transmit, h₁, except_bind_ok]
      simp only [h₂, List.take_succ_cons, List.append_assoc, List.singleton_append]

/-- Everything one service does to a well-formed link (R108). -/
theorem serviceLink_is {cfg : Config} {k : LinkState} {q : QLink} (x : Text) (n : Nat) (hcap : 2 ≤ cfg.linkCap)
    (h : LinkIs cfg.linkCap k q) :
    ∃ rx tx, serviceLink cfg k x n =
        .ok { k with rx := rx, tx := tx, pcr := satIncEach k.pcr x, wire := k.wire ++ q.tx.take n } ∧
      LinkIs cfg.linkCap { k with rx := rx, tx := tx, pcr := satIncEach k.pcr x, wire := k.wire ++ q.tx.take n }
        (q.service cfg x n) ∧
      pushString cfg.linkCap k.rx x = .ok rx ∧ tx.buf = k.tx.buf ∧ tx.head = k.tx.head := by
  obtain ⟨rx, h₁, hp, hk⟩ := receive_is x hcap h
  obtain ⟨hr, -, hpc, -⟩ := linkIs_iff.1 hk
  obtain ⟨-, htx, -, hw⟩ := linkIs_iff.1 h
  obtain ⟨tx, h₂, hc, hb, hh⟩ := transmit_is (k := { k with rx := rx, pcr := satIncEach k.pcr x }) n htx
  refine ⟨rx, tx, by rw [serviceLink, h₁, except_bind_ok, h₂], linkIs_iff.2 ⟨hr, hc, hpc, ?_⟩, hp, hb, hh⟩
  simp [QLink.service, QLink.receive, hw]

/-! ### Taking from RX, writing to TX -/

theorem rxTake_nil {cfg : Config} {k : LinkState} (h : Holds cfg.linkCap k.rx []) : rxTake cfg k = .ok (none, k) := by
  rw [rxTake, pop_nil h]; rfl

theorem takenPcr_nil (acc : CrAccounting) (c : BitVec 16) : takenPcr acc c [] = c := by cases acc <;> rfl

theorem takenPcr_cons (acc : CrAccounting) (c : BitVec 16) (b : Byte) (x : Text) :
    takenPcr acc c (b :: x) = takenPcr acc (everyCrDec acc b c) x := by
  cases acc <;> simp [takenPcr, everyCrDec, satDecEach]

/-- Everything `rxTake` does to a well-formed link that holds a received byte (R102). -/
theorem rxTake_cons {cfg : Config} {k : LinkState} {b : Byte} {c : Text} (h : Holds cfg.linkCap k.rx (b :: c)) :
    ∃ rx, rxTake cfg k = .ok (some b, { k with rx := rx, pcr := everyCrDec cfg.crAccounting b k.pcr }) ∧
      Holds cfg.linkCap rx c ∧ rx.buf = k.rx.buf ∧ rx.head = k.rx.head := by
  obtain ⟨h₁, hc⟩ := pop_cons h
  exact ⟨_, by rw [rxTake, h₁]; rfl, hc, rfl, rfl⟩

/-- Everything `txPushString` does to a well-formed link (R110). -/
theorem txPushString_is {cfg : Config} {k : LinkState} {q : QLink} (x : Text) (hcap : 2 ≤ cfg.linkCap)
    (h : LinkIs cfg.linkCap k q) :
    ∃ tx, txPushString cfg k x = .ok { k with tx := tx } ∧ pushString cfg.linkCap k.tx x = .ok tx ∧
      LinkIs cfg.linkCap { k with tx := tx } { q with tx := qAppend cfg q.tx x } := by
  obtain ⟨hr, ht, hp, hw⟩ := linkIs_iff.1 h
  obtain ⟨tx, h₁, hc⟩ := pushString_holds x hcap ht
  exact ⟨tx, by rw [txPushString, h₁]; rfl, h₁, linkIs_iff.2 ⟨hr, hc, hp, hw⟩⟩

/-- Everything `txPush` does to a well-formed link (R103). -/
theorem txPush_is {cfg : Config} {k : LinkState} {q : QLink} (b : Byte) (hcap : 2 ≤ cfg.linkCap)
    (h : LinkIs cfg.linkCap k q) :
    ∃ tx, txPush cfg k b = .ok { k with tx := tx } ∧ push cfg.linkCap k.tx b = .ok tx ∧
      LinkIs cfg.linkCap { k with tx := tx } { q with tx := qAppend cfg q.tx [b] } := by
  obtain ⟨hr, ht, hp, hw⟩ := linkIs_iff.1 h
  obtain ⟨tx, h₁, hc, -⟩ := push_holds b hcap ht
  exact ⟨tx, by rw [txPush, h₁]; rfl, h₁, linkIs_iff.2 ⟨hr, hc, hp, hw⟩⟩

end Sys2Proof.Machine
end

