-- ==== Sys2Proof/Laws/Decoder.lean ====
section
/-! SUPPORT. The frame decoder: its texts stay within their buffers, and TRY_RECV's loop on a well-formed link agrees with
the decoder run on the byte list the channel holds (43_frame_decoder.md R160 to R174). -/

namespace Sys2Proof.Machine

theorem satAppend_length {x : Text} {b : Byte} {cap : Nat} (h : x.length ≤ cap - 1) : (satAppend x b cap).length ≤ cap - 1 := by
  unfold satAppend
  split_ifs
  · simp; omega
  · exact h

/-- One byte keeps the decoder's texts within their buffers (R39). -/
theorem decStep_wf {cfg : Config} {d : Decoder} (b : Byte) (h : Decoder.wf cfg d) : Decoder.wf cfg (decStep cfg d b).2 := by
  obtain ⟨h₁, h₂, h₃⟩ := h
  have hip := satAppend_length (b := b) h₁
  have hport := satAppend_length (b := b) h₂
  have hpay := satAppend_length (b := b) h₃
  unfold decStep
  cases hst : d.st <;> simp only [] <;> try split_ifs
  all_goals first
    | exact ⟨h₁, h₂, h₃⟩
    | exact ⟨Nat.zero_le _, h₂, h₃⟩
    | exact ⟨h₁, Nat.zero_le _, h₃⟩
    | exact ⟨h₁, h₂, Nat.zero_le _⟩
    | exact ⟨hip, h₂, h₃⟩
    | exact ⟨h₁, hport, h₃⟩
    | exact ⟨h₁, h₂, hpay⟩

/-- A completed frame is the decoder's texts (R169), and the decoder is Idle after it (R166). -/
theorem decStep_frame {cfg : Config} {d : Decoder} {b : Byte} {f : Frame} (h : (decStep cfg d b).1 = some f) :
    d.st = .readingPayload ∧ b = cfg.escByte ∧ f = ⟨d.cid, d.ip, d.port, d.pay⟩ ∧
      (decStep cfg d b).2 = { d with st := .idle } := by
  unfold decStep at h ⊢
  cases hst : d.st <;> simp only [hst] at h ⊢ <;> try cases h
  split_ifs at h ⊢ with hb
  · cases h; simp [hb]

theorem decodeList_suffix (cfg : Config) (d : Decoder) (x : Text) : (decodeList cfg d x).2.2 <:+ x := by
  induction x generalizing d with
  | nil => exact List.suffix_refl _
  | cons b x ih =>
    unfold decodeList
    rcases h : decStep cfg d b with ⟨_ | f, d'⟩
    · exact (ih d').trans (List.suffix_cons _ _)
    · exact List.suffix_cons _ _

theorem decodeList_wf {cfg : Config} {d : Decoder} (x : Text) (h : Decoder.wf cfg d) :
    Decoder.wf cfg (decodeList cfg d x).2.1 := by
  induction x generalizing d with
  | nil => exact h
  | cons b x ih =>
    have hw := decStep_wf b h
    unfold decodeList
    rcases hd : decStep cfg d b with ⟨_ | f, d'⟩
    · rw [hd] at hw; exact ih hw
    · rw [hd] at hw; exact hw

/-- The texts of a delivered frame are within their buffers (R174). -/
theorem decodeList_frame_wf {cfg : Config} {d : Decoder} (x : Text) (h : Decoder.wf cfg d) {f : Frame}
    (hf : (decodeList cfg d x).1 = some f) :
    f.ip.length ≤ cfg.smallCap - 1 ∧ f.port.length ≤ cfg.smallCap - 1 ∧ f.payload.length ≤ cfg.payloadCap - 1 := by
  induction x generalizing d with
  | nil => cases hf
  | cons b x ih =>
    have hw := decStep_wf b h
    unfold decodeList at hf
    rcases hd : decStep cfg d b with ⟨_ | g, d'⟩
    · rw [hd] at hf hw; exact ih hw hf
    · rw [hd] at hf
      obtain ⟨-, -, hg, -⟩ := decStep_frame (congrArg Prod.fst hd)
      cases hf
      subst hg
      exact h

/-- Everything the loop of TRY_RECV does to a well-formed link (R168). -/
theorem recvLoop_is {cfg : Config} {fuel : Nat} {k : LinkState} {c : Text} (d : Decoder) (h : Holds cfg.linkCap k.rx c)
    (hf : c.length < fuel) :
    ∃ rx, recvLoop cfg fuel k d = .ok ((decodeList cfg d c).1,
        { k with rx := rx, pcr := takenPcr cfg.crAccounting k.pcr (consumed c (decodeList cfg d c).2.2) },
        (decodeList cfg d c).2.1) ∧
      Holds cfg.linkCap rx (decodeList cfg d c).2.2 ∧ rx.buf = k.rx.buf ∧ rx.head = k.rx.head := by
  induction fuel generalizing k c d with
  | zero => omega
  | succ fuel ih =>
    cases c with
    | nil =>
      refine ⟨k.rx, ?_, h, rfl, rfl⟩
      rw [recvLoop, rxTake_nil h]
      simp [decodeList, consumed, takenPcr_nil]
    | cons b c =>
      simp only [List.length_cons] at hf
      obtain ⟨rx₁, h₁, hc, hb₁, hh₁⟩ := rxTake_cons h
      rw [recvLoop, h₁, except_bind_ok]
      unfold decodeList
      simp only []
      rcases hd : decStep cfg d b with ⟨_ | f, d'⟩
      · simp only []
        obtain ⟨rx₂, h₂, hc₂, hb₂, hh₂⟩ := ih (k := { k with rx := rx₁, pcr := everyCrDec cfg.crAccounting b k.pcr }) d' hc (by omega)
        refine ⟨rx₂, ?_, hc₂, hb₂.trans hb₁, hh₂.trans hh₁⟩
        have hle := (decodeList_suffix cfg d' c).length_le
        have hcons : consumed (b :: c) (decodeList cfg d' c).2.2 = b :: consumed c (decodeList cfg d' c).2.2 := by
          unfold consumed
          rw [List.length_cons, show c.length + 1 - (decodeList cfg d' c).2.2.length =
            (c.length - (decodeList cfg d' c).2.2.length) + 1 by omega, List.take_succ_cons]
        rw [h₂, hcons, takenPcr_cons]
      · simp only []
        refine ⟨rx₁, ?_, hc, hb₁, hh₁⟩
        have hcons : consumed (b :: c) c = [b] := by simp [consumed]
        rw [hcons, takenPcr_cons, takenPcr_nil]

end Sys2Proof.Machine
end

