-- ==== Sys2Proof/Laws/Matcher.lean ====
section
/-! SUPPORT. The matcher on a well-formed channel agrees with the same scan of the byte list the channel holds
(41_line_matcher.md R120 to R122, R125, R127). -/

namespace Sys2Proof.Machine

/-! ### Suffixes of the content -/

theorem drop_of_suffix {x r : Text} (h : r <:+ x) : x.drop (x.length - r.length) = r := by
  obtain ⟨p, rfl⟩ := h
  simp

theorem consumed_append {p r : Text} : consumed (p ++ r) r = p := by
  simp [consumed]

/-- Moving tail to where the suffix r of the content begins. -/
theorem Holds.suffix {cap : Nat} {ch : Channel} {q r : Text} (h : Holds cap ch q) (hr : r <:+ q) :
    Holds cap { ch with tail := (ch.tail + (q.length - r.length)) % cap } r := by
  have := h.drop (k := q.length - r.length) (by omega)
  rwa [drop_of_suffix hr] at this

/-! ### NormRead -/

/-- A read leaves a proper suffix. -/
theorem readList_suffix {x : Text} {p : Byte × Text} (h : readList x = some p) : p.2 <:+ x ∧ p.2.length < x.length := by
  cases x with
  | nil => cases h
  | cons b r => cases h; exact ⟨List.suffix_cons _ _, by simp⟩

theorem skipLFList_suffix {p p' : Byte × Text} (h : skipLFList p = some p') : p'.2 <:+ p.2 ∧ p'.2.length ≤ p.2.length := by
  unfold skipLFList at h
  split_ifs at h
  · exact ⟨(readList_suffix h).1, (readList_suffix h).2.le⟩
  · cases h; exact ⟨List.suffix_refl _, le_rfl⟩

theorem skipMarkerList_suffix {esc : Byte} {p p' : Byte × Text} (h : skipMarkerList esc p = some p') :
    p'.2 <:+ p.2 ∧ p'.2.length ≤ p.2.length := by
  unfold skipMarkerList at h
  split_ifs at h
  · split at h
    · rename_i a b e r hp
      cases h
      rw [hp]
      exact ⟨⟨[a, b, e], rfl⟩, by simp; omega⟩
    · cases h
  · cases h; exact ⟨List.suffix_refl _, le_rfl⟩

/-- The bytes after a normalised byte are a proper suffix of what was left. -/
theorem normList_suffix {esc : Byte} {x : Text} {p : Byte × Text} (h : normList esc x = some p) :
    p.2 <:+ x ∧ p.2.length < x.length := by
  unfold normList at h
  obtain ⟨p₂, h₂, h₃⟩ := Option.bind_eq_some_iff.1 h
  obtain ⟨p₁, h₁, h₂⟩ := Option.bind_eq_some_iff.1 h₂
  have s₁ := readList_suffix h₁
  have s₂ := skipLFList_suffix h₂
  have s₃ := skipMarkerList_suffix h₃
  exact ⟨s₃.1.trans (s₂.1.trans s₁.1), by omega⟩

/-- The bytes left by a match are a suffix. -/
theorem matchList_suffix {esc : Byte} {x r : Text} {e : Text} (h : matchList esc x e = some r) : r <:+ x := by
  induction e generalizing x with
  | nil => cases h; exact List.suffix_refl _
  | cons a e ih =>
    unfold matchList at h
    split at h
    · cases h
    · rename_i b y hn
      split_ifs at h
      exact (ih h).trans (normList_suffix hn).1

theorem trailingCr_suffix (esc : Byte) (x : Text) : (trailingCr esc x).1 <:+ x := by
  unfold trailingCr
  split
  · exact List.suffix_refl _
  · rename_i b r hn
    split_ifs
    · exact (normList_suffix hn).1
    · exact List.suffix_refl _

/-! ### Working positions -/

/-- The working position at which the suffix r of a content of n bytes begins. -/
def posOf (cap : Nat) (ch : Channel) (n : Nat) (r : Text) : Nat := (ch.tail + (n - r.length)) % cap

theorem posOf_all {cap : Nat} {ch : Channel} {q : Text} (h : Holds cap ch q) : posOf cap ch q.length q = ch.tail := by
  obtain ⟨-, -, ht, -⟩ := holds_iff.1 h
  simp [posOf, Nat.mod_eq_of_lt ht]

theorem Holds.rem_pos {cap : Nat} {ch : Channel} {q x : Text} (h : Holds cap ch q) (hx : x <:+ q) :
    ch.rem cap (posOf cap ch q.length x) = x.length := by
  have := hx.length_le
  rw [posOf, h.rem_eq (by omega)]; omega

theorem Holds.read_pos {cap : Nat} {ch : Channel} {q x : Text} {b : Byte} (h : Holds cap ch q) (hx : b :: x <:+ q) :
    chRead cap ch (posOf cap ch q.length (b :: x)) = .ok b := by
  exact h.read (r := x) (by rw [drop_of_suffix hx])

theorem posOf_step {cap : Nat} {ch : Channel} {n k : Nat} {x y : Text} (hx : x.length ≤ n) (hk : x.length = y.length + k) :
    (posOf cap ch n x + k) % cap = posOf cap ch n y := by
  rw [posOf, posOf, add_slot]; congr 2; omega

/-! ### NormRead on a well-formed channel -/

theorem readAt_pos {cap : Nat} {ch : Channel} {q x : Text} (h : Holds cap ch q) (hx : x <:+ q) :
    readAt cap ch (posOf cap ch q.length x) = .ok ((readList x).map fun p => (p.1, posOf cap ch q.length p.2)) := by
  rw [readAt, h.rem_pos hx]
  cases x with
  | nil => rfl
  | cons b r =>
    rw [if_neg (by simp), h.read_pos hx, except_bind_ok]
    have := posOf_step (cap := cap) (ch := ch) (k := 1) (y := r) hx.length_le (by simp)
    simp [readList, nextSlot, this]

theorem skipLF_pos {cap : Nat} {ch : Channel} {q : Text} {p : Byte × Text} (h : Holds cap ch q) (hx : p.2 <:+ q) :
    skipLF cap ch p.1 (posOf cap ch q.length p.2) =
      .ok ((skipLFList p).map fun p => (p.1, posOf cap ch q.length p.2)) := by
  unfold skipLF skipLFList
  split_ifs
  · exact readAt_pos h hx
  · rfl

theorem skipMarker_pos {cap : Nat} {esc : Byte} {ch : Channel} {q : Text} {p : Byte × Text} (h : Holds cap ch q)
    (hx : p.2 <:+ q) :
    skipMarker cap esc ch p.1 (posOf cap ch q.length p.2) =
      .ok ((skipMarkerList esc p).map fun p => (p.1, posOf cap ch q.length p.2)) := by
  obtain ⟨b, x⟩ := p
  unfold skipMarker skipMarkerList
  simp only at hx ⊢
  split_ifs with he hl
  · rw [h.rem_pos hx] at hl
    rcases x with _ | ⟨_, _ | ⟨_, _ | ⟨_, _⟩⟩⟩ <;> simp_all
    omega
  · rw [h.rem_pos hx] at hl
    rcases x with _ | ⟨a, _ | ⟨a', _ | ⟨e, r⟩⟩⟩ <;> simp at hl ⊢
    have hs : e :: r <:+ q := (show e :: r <:+ a :: a' :: e :: r from ⟨[a, a'], rfl⟩).trans hx
    rw [posOf_step (k := 2) (y := e :: r) hx.length_le (by simp), h.read_pos hs, except_bind_ok, nextSlot,
      posOf_step (k := 1) (y := r) hs.length_le (by simp)]
  · rfl

/-- `NormRead` at the position of a suffix of the content reads what `normList` reads (R120). -/
theorem normRead_pos {cfg : Config} {ch : Channel} {q x : Text} (h : Holds cfg.linkCap ch q) (hx : x <:+ q) :
    normRead cfg ch (posOf cfg.linkCap ch q.length x) =
      .ok ((normList cfg.escByte x).map fun p => (p.1, posOf cfg.linkCap ch q.length p.2)) := by
  unfold normRead normList
  rw [readAt_pos h hx, except_bind_ok]
  cases h₁ : readList x with
  | none => rfl
  | some p₁ =>
    have s₁ := (readList_suffix h₁).1.trans hx
    simp only [Option.map_some, Option.bind_some]
    rw [skipLF_pos h s₁, except_bind_ok]
    cases h₂ : skipLFList p₁ with
    | none => rfl
    | some p₂ =>
      simp only [Option.map_some, Option.bind_some]
      exact skipMarker_pos h ((skipLFList_suffix h₂).1.trans s₁)

/-- The comparisons of a probe agree with `matchList` (R121). -/
theorem compareFrom_pos {cfg : Config} {ch : Channel} {q x : Text} (e : Text) (h : Holds cfg.linkCap ch q) (hx : x <:+ q) :
    compareFrom cfg ch (posOf cfg.linkCap ch q.length x) e =
      .ok ((matchList cfg.escByte x e).map fun r => posOf cfg.linkCap ch q.length r) := by
  induction e generalizing x with
  | nil => rfl
  | cons a e ih =>
    rw [compareFrom, normRead_pos h hx, except_bind_ok, matchList]
    cases hn : normList cfg.escByte x with
    | none => rfl
    | some p =>
      simp only [Option.map_some]
      split_ifs
      · exact ih ((normList_suffix hn).1.trans hx)
      · rfl

/-! ### Probe -/

theorem commit_pos {cfg : Config} {k : LinkState} {q r : Text} (cr : Bool) (h : Holds cfg.linkCap k.rx q) :
    commit cfg k (posOf cfg.linkCap k.rx q.length r) cr =
      .ok { k with rx := { k.rx with tail := posOf cfg.linkCap k.rx q.length r },
                   pcr := commitPcr cfg.crAccounting k.pcr (consumed q r) cr } := by
  obtain ⟨-, -, ht, hn, -⟩ := holds_iff.1 h
  rw [commit, posOf, modSub_add ht (by omega)]
  have hs := h.readSpan (k := 0) (n := q.length - r.length) (by omega)
  rw [Nat.add_zero, Nat.mod_eq_of_lt ht] at hs
  rw [hs, except_bind_ok]
  rfl

/-- Everything `probe` does to a well-formed link (R121, R122): on a mismatch nothing; on a match the content left and
the counter are those of the queue, and no storage is written. -/
theorem probe_is {cfg : Config} {k : LinkState} {q : QLink} (e : Text) (h : LinkIs cfg.linkCap k q) :
    ∃ rx, probe cfg k e = .ok ((q.probe cfg e).1, { k with rx := rx, pcr := (q.probe cfg e).2.pcr }) ∧
      LinkIs cfg.linkCap { k with rx := rx, pcr := (q.probe cfg e).2.pcr } (q.probe cfg e).2 ∧
      rx.buf = k.rx.buf ∧ rx.head = k.rx.head ∧ ((q.probe cfg e).1 = false → rx = k.rx) := by
  obtain ⟨hr, ht, hp, hw⟩ := linkIs_iff.1 h
  have hc := compareFrom_pos e hr (List.suffix_refl q.rx)
  rw [posOf_all hr] at hc
  rw [probe, hc, except_bind_ok, QLink.probe]
  cases hm : matchList cfg.escByte q.rx e with
  | none => exact ⟨k.rx, by simp [← hp], linkIs_iff.2 ⟨hr, ht, rfl, hw⟩, rfl, rfl, fun _ => rfl⟩
  | some r =>
    have hs := matchList_suffix hm
    simp only [Option.map_some]
    have hcom : (do
        let k ← match (← normRead cfg k.rx (posOf cfg.linkCap k.rx q.rx.length r)) with
          | some (b, w') =>
            if b = byteCR then commit cfg k w' true
            else commit cfg k (posOf cfg.linkCap k.rx q.rx.length r) false
          | none => commit cfg k (posOf cfg.linkCap k.rx q.rx.length r) false
        Except.ok (true, k)) =
        Except.ok (true, { k with
          rx := { k.rx with tail := posOf cfg.linkCap k.rx q.rx.length (trailingCr cfg.escByte r).1 },
          pcr := commitPcr cfg.crAccounting k.pcr (consumed q.rx (trailingCr cfg.escByte r).1)
            (trailingCr cfg.escByte r).2 }) := by
      rw [normRead_pos hr hs, except_bind_ok, trailingCr]
      cases hn : normList cfg.escByte r with
      | none => simp only [Option.map_none]; rw [commit_pos false hr]; rfl
      | some p =>
        simp only [Option.map_some]
        split_ifs
        · rw [commit_pos true hr]; rfl
        · rw [commit_pos false hr]; rfl
    have hts := (trailingCr_suffix cfg.escByte r).trans hs
    exact ⟨{ k.rx with tail := posOf cfg.linkCap k.rx q.rx.length (trailingCr cfg.escByte r).1 },
      by rw [← hp]; exact hcom, linkIs_iff.2 ⟨hr.suffix hts, ht, rfl, hw⟩, rfl, rfl, by simp⟩

/-! ### Extract and skip -/

/-- The loop of `Extract` with fuel enough for the content agrees with `extractList` (R125). -/
theorem extractLoop_is {cfg : Config} (cap : Nat) {fuel : Nat} {k : LinkState} {c : Text} (x : Text)
    (h : Holds cfg.linkCap k.rx c) (hf : c.length < fuel) :
    ∃ rx, extractLoop cfg cap fuel k x =
        .ok ((extractList cap x c).1,
          { k with rx := rx, pcr := if (extractList cap x c).2.2 then satDec k.pcr else k.pcr }) ∧
      Holds cfg.linkCap rx (extractList cap x c).2.1 ∧ rx.buf = k.rx.buf ∧ rx.head = k.rx.head := by
  induction fuel generalizing k c x with
  | zero => omega
  | succ fuel ih =>
    cases c with
    | nil =>
      exact ⟨k.rx, by rw [extractLoop, pop_nil h]; rfl, h, rfl, rfl⟩
    | cons b c =>
      obtain ⟨h₁, hc⟩ := pop_cons h
      rw [extractLoop, h₁, except_bind_ok]
      simp only [List.length_cons] at hf
      unfold extractList
      by_cases hcr : b = byteCR
      · simp only [hcr, if_true]; exact ⟨_, rfl, hc, rfl, rfl⟩
      by_cases hnul : b = byteNUL
      · simp only [hnul, if_true]; exact ⟨_, rfl, hc, rfl, rfl⟩
      simp only [hcr, hnul, if_false]
      cases hctl : isControl b
      · simp only [Bool.false_eq_true, if_false]
        exact ih (k := { k with rx := { k.rx with tail := nextSlot cfg.linkCap k.rx.tail } }) (satAppend x b cap) hc (by omega)
      · simp only [if_true]
        exact ih (k := { k with rx := { k.rx with tail := nextSlot cfg.linkCap k.rx.tail } }) x hc (by omega)

/-- Everything `extract` does to a well-formed link (R125). -/
theorem extract_is {cfg : Config} {k : LinkState} {q : QLink} (cap : Nat) (h : LinkIs cfg.linkCap k q) :
    ∃ rx, extract cfg k cap = .ok ((q.extract cap).1, { k with rx := rx, pcr := (q.extract cap).2.pcr }) ∧
      LinkIs cfg.linkCap { k with rx := rx, pcr := (q.extract cap).2.pcr } (q.extract cap).2 ∧
      rx.buf = k.rx.buf ∧ rx.head = k.rx.head := by
  obtain ⟨hr, ht, hp, hw⟩ := linkIs_iff.1 h
  obtain ⟨rx, h₁, hc, hb, hh⟩ := extractLoop_is cap [] hr (Nat.lt_succ_self q.rx.length)
  refine ⟨rx, ?_, linkIs_iff.2 ⟨hc, ht, rfl, hw⟩, hb, hh⟩
  rw [extract, hr.count_eq, h₁, hp]; rfl

theorem skipLoop_is {cfg : Config} {fuel : Nat} {k : LinkState} {c : Text} (h : Holds cfg.linkCap k.rx c)
    (hf : c.length < fuel) :
    ∃ rx, skipLoop cfg fuel k =
        .ok { k with rx := rx, pcr := match skipList c with | none => 0 | some _ => satDec k.pcr } ∧
      Holds cfg.linkCap rx ((skipList c).getD []) ∧ rx.buf = k.rx.buf ∧ rx.head = k.rx.head := by
  induction fuel generalizing k c with
  | zero => omega
  | succ fuel ih =>
    cases c with
    | nil => exact ⟨k.rx, by rw [skipLoop, pop_nil h]; rfl, h, rfl, rfl⟩
    | cons b c =>
      obtain ⟨h₁, hc⟩ := pop_cons h
      rw [skipLoop, h₁, except_bind_ok]
      simp only [skipList]
      simp only [List.length_cons] at hf
      split_ifs
      · exact ⟨_, rfl, hc, rfl, rfl⟩
      · exact ih (k := { k with rx := { k.rx with tail := nextSlot cfg.linkCap k.rx.tail } }) hc (by omega)

/-- Everything `skipLine` does to a well-formed link (R127). -/
theorem skipLine_is {cfg : Config} {k : LinkState} {q : QLink} (h : LinkIs cfg.linkCap k q) :
    ∃ rx, skipLine cfg k = .ok { k with rx := rx, pcr := q.skip.pcr } ∧
      LinkIs cfg.linkCap { k with rx := rx, pcr := q.skip.pcr } q.skip ∧ rx.buf = k.rx.buf ∧ rx.head = k.rx.head := by
  obtain ⟨hr, ht, hp, hw⟩ := linkIs_iff.1 h
  obtain ⟨rx, h₁, hc, hb, hh⟩ := skipLoop_is hr (Nat.lt_succ_self q.rx.length)
  refine ⟨rx, ?_, ?_, hb, hh⟩
  · rw [skipLine, hr.count_eq, h₁, QLink.skip]
    cases skipList q.rx <;> simp [hp]
  · refine linkIs_iff.2 ?_
    unfold QLink.skip
    cases hs : skipList q.rx with
    | none => exact ⟨by simpa [hs] using hc, ht, rfl, hw⟩
    | some r => exact ⟨by simpa [hs] using hc, ht, rfl, hw⟩

end Sys2Proof.Machine
end

