-- ==== Sys2Proof/Laws/Engine.lean ====
section
/-! SUPPORT. EXECUTE's poll on a well-formed state agrees with the queue machine's (42_command_engine.md R140 to R144). -/

namespace Sys2Proof.Machine

/-- Both links are well-formed for the state's LINK_CAP. -/
def LinksWf (s : State) : Prop := 2 ≤ s.cfg.linkCap ∧ LinkState.wf s.cfg.linkCap s.m ∧ LinkState.wf s.cfg.linkCap s.t

theorem State.wf.links {s : State} (h : s.wf) : LinksWf s := ⟨h.1.1, h.2.1, h.2.2.1⟩

/-- Everything one service does to a state with well-formed links (R108). -/
theorem serviceNext_is {s : State} (h : LinksWf s) :
    ∃ m t, serviceNext s = .ok { s.drawTaken with m := m, t := t } ∧ LinksWf { s.drawTaken with m := m, t := t } ∧
      State.abs { s.drawTaken with m := m, t := t } = s.abs.service ∧
      Advanced s.cfg.linkCap s.nextDraw.rxM.length s.m.rx m.rx ∧ m.tx.buf = s.m.tx.buf ∧ m.tx.head = s.m.tx.head ∧
      Advanced s.cfg.linkCap s.nextDraw.rxT.length s.t.rx t.rx ∧ t.tx.buf = s.t.tx.buf ∧ t.tx.head = s.t.tx.head := by
  obtain ⟨hcap, hm, ht⟩ := h
  obtain ⟨rx, tx, h₁, ⟨hw₁, ha₁⟩, hp₁, hb₁, hh₁⟩ := serviceLink_is s.nextDraw.rxM s.nextDraw.txM hcap (LinkState.wf_is hm)
  obtain ⟨rx', tx', h₂, ⟨hw₂, ha₂⟩, hp₂, hb₂, hh₂⟩ := serviceLink_is s.nextDraw.rxT s.nextDraw.txT hcap (LinkState.wf_is ht)
  refine ⟨_, _, ?_, ⟨hcap, hw₁, hw₂⟩, ?_, pushString_advanced hcap (Channel.wf_holds hm.1) hp₁, hb₁, hh₁,
    pushString_advanced hcap (Channel.wf_holds ht.1) hp₂, hb₂, hh₂⟩
  · simp only [serviceNext, serviceWith, State.drawTaken]
    rw [h₁, except_bind_ok, h₂, except_bind_ok]
  · simp only [State.abs, QState.service, State.drawTaken]
    rw [ha₁, ha₂]
    rfl

/-- Everything one classification does to a well-formed link (R142). -/
theorem classify_is {cfg : Config} {k : LinkState} {q : QLink} (h : LinkIs cfg.linkCap k q) :
    ∃ rx, classify cfg k = .ok ((q.classify cfg).1, { k with rx := rx, pcr := (q.classify cfg).2.pcr }) ∧
      LinkIs cfg.linkCap { k with rx := rx, pcr := (q.classify cfg).2.pcr } (q.classify cfg).2 ∧
      rx.buf = k.rx.buf ∧ rx.head = k.rx.head := by
  obtain ⟨rx₁, h₁, hk₁, hb₁, hh₁, -⟩ := probe_is tokenOK h
  rw [classify, h₁, except_bind_ok, QLink.classify]
  rcases hp₁ : q.probe cfg tokenOK with ⟨_ | _, q₁⟩
  · rw [hp₁] at hk₁
    obtain ⟨rx₂, h₂, hk₂, hb₂, hh₂, -⟩ := probe_is tokenERROR hk₁
    simp only [Bool.false_eq_true, if_false]
    rw [h₂, except_bind_ok]
    rcases hp₂ : q₁.probe cfg tokenERROR with ⟨_ | _, q₂⟩
    · rw [hp₂] at hk₂
      obtain ⟨rx₃, h₃, hk₃, hb₃, hh₃⟩ := extract_is cfg.smallCap hk₂
      simp only [Bool.false_eq_true, if_false]
      rw [h₃, except_bind_ok]
      exact ⟨rx₃, rfl, hk₃, by rw [hb₃]; exact hb₂.trans hb₁, by rw [hh₃]; exact hh₂.trans hh₁⟩
    · rw [hp₂] at hk₂
      exact ⟨rx₂, rfl, hk₂, hb₂.trans hb₁, hh₂.trans hh₁⟩
  · rw [hp₁] at hk₁
    exact ⟨rx₁, rfl, hk₁, hb₁, hh₁⟩

/-- Everything the poll does to a state with well-formed links: it agrees with the queue machine's poll, uses j ≤ n
draws, all n on a timeout, and writes only the storage the received bytes are pushed into (R140, R141, R144). -/
theorem pollLoop_is {n : Nat} {line : Option Text} {s : State} (h : LinksWf s) :
    ∃ j ≤ n, ∃ m t,
      pollLoop n line s = .ok ((s.abs.poll n line).1, (s.abs.poll n line).2.1,
        { s with m := m, t := t, draws := s.draws.drop j, serviced := s.serviced + j }) ∧
      LinksWf { s with m := m, t := t, draws := s.draws.drop j, serviced := s.serviced + j } ∧
      State.abs { s with m := m, t := t, draws := s.draws.drop j, serviced := s.serviced + j } =
        (s.abs.poll n line).2.2 ∧
      (s.abs.poll n line).1 ≠ .data ∧ ((s.abs.poll n line).1 = .timeout → j = n) ∧
      Advanced s.cfg.linkCap (receivedM (s.drawsAhead j)) s.m.rx m.rx ∧ m.tx.buf = s.m.tx.buf ∧ m.tx.head = s.m.tx.head ∧
      Advanced s.cfg.linkCap (receivedT (s.drawsAhead j)) s.t.rx t.rx ∧ t.tx.buf = s.t.tx.buf ∧ t.tx.head = s.t.tx.head := by
  induction n generalizing line s with
  | zero =>
    exact ⟨0, le_rfl, s.m, s.t, rfl, h, rfl, by simp [QState.poll], fun _ => rfl,
      advanced_zero h.2.1.1.2.2.1 rfl rfl, rfl, rfl, advanced_zero h.2.2.1.2.2.1 rfl rfl, rfl, rfl⟩
  | succ n ih =>
    obtain ⟨m₁, t₁, hs, hw, ha, hAm, hbm, hhm, hAt, hbt, hht⟩ := serviceNext_is h
    have hpcr : (s.abs.service).m.pcr = m₁.pcr := by rw [← ha]; rfl
    rw [pollLoop, hs, except_bind_ok, QState.poll]
    simp only [hpcr]
    have hdrop : ∀ j, (s.draws.tail).drop j = s.draws.drop (j + 1) := by intro j; simp
    by_cases h0 : m₁.pcr = 0
    · simp only [h0, if_true]
      obtain ⟨j, hj, m, t, h₁, h₂, h₃, h₄, h₅, h₆, h₇, h₈, h₉, h₁₀, h₁₁⟩ := ih (line := line) hw
      rw [ha] at h₁ h₃ h₄ h₅
      refine ⟨j + 1, by omega, m, t, ?_, ?_, ?_, h₄, fun e => by rw [h₅ e], ?_, h₇.trans hbm, h₈.trans hhm, ?_, h₁₀.trans hbt,
        h₁₁.trans hht⟩
      · rw [h₁]; simp only [State.drawTaken, hdrop, Nat.add_assoc, Nat.add_comm 1]
      · simpa only [State.drawTaken, hdrop, Nat.add_assoc, Nat.add_comm 1] using h₂
      · rw [← h₃]; simp only [State.drawTaken, hdrop, Nat.add_assoc, Nat.add_comm 1]
      · exact hAm.trans h₆
      · exact hAt.trans h₉
    · simp only [h0, if_false]
      have hlm : LinkIs s.cfg.linkCap m₁ s.abs.service.m := ⟨hw.2.1, by rw [← ha]; rfl⟩
      obtain ⟨rx, hc, hk, hb, hh⟩ := classify_is (cfg := s.cfg) hlm
      have hcfg : s.abs.service.cfg = s.cfg := rfl
      rw [show (State.cfg { s.drawTaken with m := m₁, t := t₁ }) = s.cfg from rfl, hc, except_bind_ok, hcfg]
      have hAm0 : Advanced s.cfg.linkCap s.nextDraw.rxM.length s.m.rx rx :=
        hAm.trans (advanced_zero hw.2.1.1.2.2.1 hb hh)
      have honeM : receivedM (s.drawsAhead 1) = s.nextDraw.rxM.length := by
        simp [receivedM, State.drawsAhead, upcoming, State.nextDraw]
      have honeT : receivedT (s.drawsAhead 1) = s.nextDraw.rxT.length := by
        simp [receivedT, State.drawsAhead, upcoming, State.nextDraw]
      have habs : State.abs { s.drawTaken with
          m := { m₁ with rx := rx, pcr := (s.abs.service.m.classify s.cfg).2.pcr }, t := t₁ } =
          { s.abs.service with m := (s.abs.service.m.classify s.cfg).2 } := by
        have e := hk.2
        rw [← ha] at e ⊢
        simp only [State.abs] at e ⊢
        rw [← e]; rfl
      cases hcl : (s.abs.service.m.classify s.cfg).1 with
      | ok =>
        refine ⟨1, by omega, _, t₁, by simp [State.drawTaken], ⟨hw.1, hk.1, hw.2.2⟩, ?_, by simp, by simp, ?_, hbm, hhm, ?_, hbt, hht⟩
        · simpa [State.drawTaken, hcfg] using habs
        · rw [honeM]; exact hAm0
        · rw [honeT]; exact hAt
      | error =>
        refine ⟨1, by omega, _, t₁, by simp [State.drawTaken], ⟨hw.1, hk.1, hw.2.2⟩, ?_, by simp, by simp, ?_, hbm, hhm, ?_, hbt, hht⟩
        · simpa [State.drawTaken, hcfg] using habs
        · rw [honeM]; exact hAm0
        · rw [honeT]; exact hAt
      | line x =>
        obtain ⟨j, hj, m, t, h₁, h₂, h₃, h₄, h₅, h₆, h₇, h₈, h₉, h₁₀, h₁₁⟩ :=
          ih (line := some x) (s := { s.drawTaken with
            m := { m₁ with rx := rx, pcr := (s.abs.service.m.classify s.cfg).2.pcr }, t := t₁ }) ⟨hw.1, hk.1, hw.2.2⟩
        rw [habs] at h₁ h₃ h₄ h₅
        refine ⟨j + 1, by omega, m, t, ?_, ?_, ?_, h₄, fun e => by rw [h₅ e], ?_, h₇.trans hbm, h₈.trans hhm, ?_,
          h₁₀.trans hbt, h₁₁.trans hht⟩
        · refine h₁.trans ?_
          simp only [State.drawTaken, hdrop, Nat.add_assoc, Nat.add_comm 1, hcfg]
        · simpa only [State.drawTaken, hdrop, Nat.add_assoc, Nat.add_comm 1] using h₂
        · refine Eq.trans ?_ (h₃.trans ?_)
          · simp only [State.drawTaken, hdrop, Nat.add_assoc, Nat.add_comm 1]
          · simp only [hcfg]
        · exact hAm0.trans h₆
        · exact hAt.trans h₉

end Sys2Proof.Machine
end

