-- ==== Sys2Proof/Laws/PerInstr.lean ====
section
/-! SUPPORT. Per command: its encoded word matches exactly one row of R85, the row of its mnemonic, and carries an operand
only where the row takes one. -/

namespace Sys2Proof.Laws

/-- The mnemonic of a command (R84). -/
def mnemonicOf : Instr → Mnemonic
  | .chPush _ _ _ => .CH_PUSH
  | .chPop _ _ => .CH_POP
  | .chAvail _ _ => .CH_AVAIL
  | .probe _ _ => .PROBE
  | .extract _ _ => .EXTRACT
  | .skip _ => .SKIP
  | .execute _ => .EXECUTE
  | .sendRaw _ _ => .SEND_RAW
  | .sendUdp _ => .SEND_UDP
  | .tryRecv => .TRY_RECV
  | .resetLink _ => .RESET_LINK
  | .service => .SERVICE

/-- The rows that accept a command's word are exactly the row of its mnemonic, and where that row takes no operand the
command carries none. -/
def EncodingMatchesRow.Statement (i : Instr) : Prop :=
  ∃ r, (opcodeTable.filter fun r => r.accepts (commandWord i)) = [r] ∧ r.mnemonic = mnemonicOf i ∧
    (r.takesOperand = false → i.operand = [])

/-- A property of every byte, from its 256 values. -/
theorem byte_cases (p : Byte → Prop) (h : ∀ n : Fin 256, p (BitVec.ofFin n)) (b : Byte) : p b := h b.toFin

theorem EncodingMatchesRow.chPush (l : Link) (d : Dir) (b : Byte) : EncodingMatchesRow.Statement (.chPush l d b) := by
  refine ⟨⟨.CH_PUSH, 0x0800, 0xF900, false⟩, ?_, rfl, fun _ => rfl⟩
  revert b
  apply byte_cases
  cases l <;> cases d <;> decide +kernel

theorem EncodingMatchesRow.chPop (l : Link) (d : Dir) : EncodingMatchesRow.Statement (.chPop l d) := by
  refine ⟨⟨.CH_POP, 0x1000, 0xF9FF, false⟩, ?_, rfl, fun _ => rfl⟩
  cases l <;> cases d <;> decide

theorem EncodingMatchesRow.chAvail (l : Link) (d : Dir) : EncodingMatchesRow.Statement (.chAvail l d) := by
  refine ⟨⟨.CH_AVAIL, 0x1800, 0xF9FF, false⟩, ?_, rfl, fun _ => rfl⟩
  cases l <;> cases d <;> decide

theorem EncodingMatchesRow.probe (l : Link) (e : Text) : EncodingMatchesRow.Statement (.probe l e) := by
  refine ⟨⟨.PROBE, 0x2000, 0xFBFF, true⟩, ?_, rfl, nofun⟩
  cases l <;> simp only [commandWord] <;> decide

theorem EncodingMatchesRow.extract (l : Link) (cap : Byte) : EncodingMatchesRow.Statement (.extract l cap) := by
  refine ⟨⟨.EXTRACT, 0x2800, 0xFB00, false⟩, ?_, rfl, fun _ => rfl⟩
  revert cap
  apply byte_cases
  cases l <;> decide +kernel

theorem EncodingMatchesRow.skip (l : Link) : EncodingMatchesRow.Statement (.skip l) := by
  refine ⟨⟨.SKIP, 0x3000, 0xFBFF, false⟩, ?_, rfl, fun _ => rfl⟩
  cases l <;> decide

theorem EncodingMatchesRow.execute (x : Text) : EncodingMatchesRow.Statement (.execute x) :=
  ⟨⟨.EXECUTE, 0x4000, 0xFFFF, true⟩, by simp only [commandWord]; decide, rfl, nofun⟩

theorem EncodingMatchesRow.sendRaw (l : Link) (x : Text) : EncodingMatchesRow.Statement (.sendRaw l x) := by
  refine ⟨⟨.SEND_RAW, 0x4A00, 0xFBFF, true⟩, ?_, rfl, nofun⟩
  cases l <;> simp only [commandWord] <;> decide

theorem EncodingMatchesRow.sendUdp (x : Text) : EncodingMatchesRow.Statement (.sendUdp x) :=
  ⟨⟨.SEND_UDP, 0x5200, 0xFFFF, true⟩, by simp only [commandWord]; decide, rfl, nofun⟩

theorem EncodingMatchesRow.tryRecv : EncodingMatchesRow.Statement .tryRecv :=
  ⟨⟨.TRY_RECV, 0x5800, 0xFFFF, false⟩, by decide, rfl, fun _ => rfl⟩

theorem EncodingMatchesRow.resetLink (l : Link) : EncodingMatchesRow.Statement (.resetLink l) := by
  refine ⟨⟨.RESET_LINK, 0x6000, 0xFBFF, false⟩, ?_, rfl, fun _ => rfl⟩
  cases l <;> decide

theorem EncodingMatchesRow.service : EncodingMatchesRow.Statement .service :=
  ⟨⟨.SERVICE, 0x6800, 0xFFFF, false⟩, by decide, rfl, fun _ => rfl⟩

end Sys2Proof.Laws
end

