-- ==== Sys2Proof/Laws/State.lean ====
section
/-! SUPPORT. One lemma per field per update of State, so that no proof unfolds a record update; and everything that
raising a fault, completing a command and taking the next command can do. -/

namespace Sys2Proof.Machine

/-! ### Links -/

@[simp] theorem State.link_m (s : State) : s.link .m = s.m := rfl
@[simp] theorem State.link_t (s : State) : s.link .t = s.t := rfl
@[simp] theorem LinkState.chan_rx (k : LinkState) : k.chan .rx = k.rx := rfl
@[simp] theorem LinkState.chan_tx (k : LinkState) : k.chan .tx = k.tx := rfl

@[simp] theorem State.setLink_m_m (s : State) (k : LinkState) : (s.setLink .m k).m = k := rfl
@[simp] theorem State.setLink_m_t (s : State) (k : LinkState) : (s.setLink .m k).t = s.t := rfl
@[simp] theorem State.setLink_t_m (s : State) (k : LinkState) : (s.setLink .t k).m = s.m := rfl
@[simp] theorem State.setLink_t_t (s : State) (k : LinkState) : (s.setLink .t k).t = k := rfl
@[simp] theorem State.setLink_cfg (s : State) (l : Link) (k : LinkState) : (s.setLink l k).cfg = s.cfg := by cases l <;> rfl
@[simp] theorem State.setLink_dec (s : State) (l : Link) (k : LinkState) : (s.setLink l k).dec = s.dec := by cases l <;> rfl
@[simp] theorem State.setLink_ep (s : State) (l : Link) (k : LinkState) : (s.setLink l k).ep = s.ep := by cases l <;> rfl
@[simp] theorem State.setLink_fault (s : State) (l : Link) (k : LinkState) : (s.setLink l k).fault = s.fault := by
  cases l <;> rfl
@[simp] theorem State.setLink_pending (s : State) (l : Link) (k : LinkState) : (s.setLink l k).pending = s.pending := by
  cases l <;> rfl
@[simp] theorem State.setLink_responses (s : State) (l : Link) (k : LinkState) :
    (s.setLink l k).responses = s.responses := by cases l <;> rfl
@[simp] theorem State.setLink_draws (s : State) (l : Link) (k : LinkState) : (s.setLink l k).draws = s.draws := by
  cases l <;> rfl
@[simp] theorem State.setLink_serviced (s : State) (l : Link) (k : LinkState) :
    (s.setLink l k).serviced = s.serviced := by cases l <;> rfl

@[simp] theorem State.setLink_link_same (s : State) (l : Link) (k : LinkState) : (s.setLink l k).link l = k := by
  cases l <;> rfl

theorem State.setLink_link_other (s : State) {l l' : Link} (k : LinkState) (h : l' ≠ l) :
    (s.setLink l k).link l' = s.link l' := by
  cases l <;> cases l' <;> first | rfl | exact absurd rfl h

@[simp] theorem State.setLink_self (s : State) (l : Link) : s.setLink l (s.link l) = s := by cases l <;> rfl

/-! ### Raising a fault (R211) -/

@[simp] theorem State.raise_m (s : State) (r : FaultReason) : (s.raise r).m = s.m := by unfold State.raise; split <;> rfl
@[simp] theorem State.raise_t (s : State) (r : FaultReason) : (s.raise r).t = s.t := by unfold State.raise; split <;> rfl
@[simp] theorem State.raise_cfg (s : State) (r : FaultReason) : (s.raise r).cfg = s.cfg := by
  unfold State.raise; split <;> rfl
@[simp] theorem State.raise_dec (s : State) (r : FaultReason) : (s.raise r).dec = s.dec := by
  unfold State.raise; split <;> rfl
@[simp] theorem State.raise_ep (s : State) (r : FaultReason) : (s.raise r).ep = s.ep := by unfold State.raise; split <;> rfl
@[simp] theorem State.raise_pending (s : State) (r : FaultReason) : (s.raise r).pending = s.pending := by
  unfold State.raise; split <;> rfl
@[simp] theorem State.raise_responses (s : State) (r : FaultReason) : (s.raise r).responses = s.responses := by
  unfold State.raise; split <;> rfl
@[simp] theorem State.raise_draws (s : State) (r : FaultReason) : (s.raise r).draws = s.draws := by
  unfold State.raise; split <;> rfl
@[simp] theorem State.raise_serviced (s : State) (r : FaultReason) : (s.raise r).serviced = s.serviced := by
  unfold State.raise; split <;> rfl

/-- With no fault recorded, raising records the reason and changes nothing else. -/
theorem State.raise_of_none {s : State} (h : s.fault = none) (r : FaultReason) : s.raise r = { s with fault := some r } := by
  simp [State.raise, h]

/-- A recorded fault stays. -/
theorem State.raise_of_some {s : State} {r : FaultReason} (h : s.fault = some r) (r' : FaultReason) : s.raise r' = s := by
  simp [State.raise, h]

/-! ### A choice of the environment used up -/

@[simp] theorem State.drawTaken_m (s : State) : s.drawTaken.m = s.m := rfl
@[simp] theorem State.drawTaken_t (s : State) : s.drawTaken.t = s.t := rfl
@[simp] theorem State.drawTaken_cfg (s : State) : s.drawTaken.cfg = s.cfg := rfl
@[simp] theorem State.drawTaken_dec (s : State) : s.drawTaken.dec = s.dec := rfl
@[simp] theorem State.drawTaken_ep (s : State) : s.drawTaken.ep = s.ep := rfl
@[simp] theorem State.drawTaken_fault (s : State) : s.drawTaken.fault = s.fault := rfl
@[simp] theorem State.drawTaken_pending (s : State) : s.drawTaken.pending = s.pending := rfl
@[simp] theorem State.drawTaken_responses (s : State) : s.drawTaken.responses = s.responses := rfl
@[simp] theorem State.drawTaken_draws (s : State) : s.drawTaken.draws = s.draws.tail := rfl
@[simp] theorem State.drawTaken_serviced (s : State) : s.drawTaken.serviced = s.serviced + 1 := rfl

/-! ### Commands placed before the others -/

@[simp] theorem State.issueFirst_m (s : State) (c : Issue) : (s.issueFirst c).m = s.m := rfl
@[simp] theorem State.issueFirst_t (s : State) (c : Issue) : (s.issueFirst c).t = s.t := rfl
@[simp] theorem State.issueFirst_cfg (s : State) (c : Issue) : (s.issueFirst c).cfg = s.cfg := rfl
@[simp] theorem State.issueFirst_dec (s : State) (c : Issue) : (s.issueFirst c).dec = s.dec := rfl
@[simp] theorem State.issueFirst_ep (s : State) (c : Issue) : (s.issueFirst c).ep = s.ep := rfl
@[simp] theorem State.issueFirst_fault (s : State) (c : Issue) : (s.issueFirst c).fault = s.fault := rfl
@[simp] theorem State.issueFirst_pending (s : State) (c : Issue) : (s.issueFirst c).pending = c :: s.pending := rfl
@[simp] theorem State.issueFirst_responses (s : State) (c : Issue) : (s.issueFirst c).responses = s.responses := rfl
@[simp] theorem State.issueFirst_draws (s : State) (c : Issue) : (s.issueFirst c).draws = s.draws := rfl
@[simp] theorem State.issueFirst_serviced (s : State) (c : Issue) : (s.issueFirst c).serviced = s.serviced := rfl

theorem State.nextIssue_nil {s : State} (h : s.pending = []) : s.nextIssue = none := by simp [State.nextIssue, h]

theorem State.nextIssue_cons {s : State} {c : Issue} {rest : List Issue} (h : s.pending = c :: rest) :
    s.nextIssue = some (c, { s with pending := rest }) := by simp [State.nextIssue, h]

/-- Taking the command just placed gives the state it was placed in. -/
@[simp] theorem State.nextIssue_issueFirst (s : State) (c : Issue) : (s.issueFirst c).nextIssue = some (c, s) := rfl

@[simp] theorem State.load_pending (s : State) (p : List Instr) (ds : List Draw) :
    (s.load p ds).pending = p.map Instr.issue := rfl
@[simp] theorem State.load_draws (s : State) (p : List Instr) (ds : List Draw) : (s.load p ds).draws = ds := rfl
@[simp] theorem State.load_m (s : State) (p : List Instr) (ds : List Draw) : (s.load p ds).m = s.m := rfl
@[simp] theorem State.load_t (s : State) (p : List Instr) (ds : List Draw) : (s.load p ds).t = s.t := rfl
@[simp] theorem State.load_cfg (s : State) (p : List Instr) (ds : List Draw) : (s.load p ds).cfg = s.cfg := rfl
@[simp] theorem State.load_fault (s : State) (p : List Instr) (ds : List Draw) : (s.load p ds).fault = s.fault := rfl

/-! ### Power-on -/

@[simp] theorem State.powerOn_cfg (p : Config) : (State.powerOn p).cfg = p := rfl
@[simp] theorem State.powerOn_m (p : Config) : (State.powerOn p).m = LinkState.reset := rfl
@[simp] theorem State.powerOn_t (p : Config) : (State.powerOn p).t = LinkState.reset := rfl
@[simp] theorem State.powerOn_dec (p : Config) : (State.powerOn p).dec = Decoder.reset := rfl
@[simp] theorem State.powerOn_ep (p : Config) : (State.powerOn p).ep = Endpoint.reset := rfl
@[simp] theorem State.powerOn_fault (p : Config) : (State.powerOn p).fault = none := rfl
@[simp] theorem State.powerOn_pending (p : Config) : (State.powerOn p).pending = [] := rfl
@[simp] theorem State.powerOn_responses (p : Config) : (State.powerOn p).responses = [] := rfl
@[simp] theorem State.powerOn_draws (p : Config) : (State.powerOn p).draws = [] := rfl
@[simp] theorem State.powerOn_serviced (p : Config) : (State.powerOn p).serviced = 0 := rfl

/-! ### Completing a command -/

/-- A recorded fault stops every command (R212). -/
theorem perform_faulted {s : State} {r : FaultReason} (h : s.fault = some r) (body : Except Fault Completion) :
    perform s body = .fault (.stuck r) := by simp [perform, h]

theorem perform_responds {s s' : State} {r : Response} (h : s.fault = none) :
    perform s (.ok (.responds r s')) = .next { s' with responses := s'.responses ++ [r] } := by simp [perform, h]

theorem perform_raises {s : State} {r : FaultReason} (h : s.fault = none) :
    perform s (.ok (.raises r)) = .next { s with fault := some r } := by simp [perform, h, State.raise]

/-- If a command answers a next state, no fault was recorded, and the body either returned a response or raised a fault
in the state before it. -/
theorem perform_next {s t : State} {body : Except Fault Completion} (h : perform s body = .next t) :
    s.fault = none ∧
      ((∃ r s', body = .ok (.responds r s') ∧ t = { s' with responses := s'.responses ++ [r] }) ∨
        ∃ r, body = .ok (.raises r) ∧ t = { s with fault := some r }) := by
  unfold perform at h
  split at h
  · cases h
  · rename_i hf
    split at h
    · cases h
    · cases h; exact ⟨hf, .inl ⟨_, _, rfl, rfl⟩⟩
    · cases h; exact ⟨hf, .inr ⟨_, rfl, State.raise_of_none hf _⟩⟩

/-- A body that changes one link, when its computation succeeds. -/
theorem onLink_ok {s : State} {l : Link} {r : Response} {k : LinkState} :
    onLink s l (.ok (r, k)) = .ok (.responds r (s.setLink l k)) := rfl

/-- If a body that changes one link succeeds, it returns a response. -/
theorem onLink_eq_ok {s : State} {l : Link} {body : Except Fault (Response × LinkState)} {x : Completion}
    (h : onLink s l body = .ok x) : ∃ r k, body = .ok (r, k) ∧ x = .responds r (s.setLink l k) := by
  unfold onLink at h
  rcases body with e | ⟨r, k⟩
  · cases h
  · cases h; exact ⟨r, k, rfl, rfl⟩

/-! ### A step -/

/-- Everything a step can do: stop on a recorded fault, wait, raise IllegalCommand, or execute the decoded command. -/
theorem step_cases (s : State) :
    (∃ r, s.fault = some r ∧ step s = .fault (.stuck r)) ∨
    (s.fault = none ∧ s.pending = [] ∧ step s = .next s) ∨
    (s.fault = none ∧ ∃ c rest, s.pending = c :: rest ∧
      ((∃ i, decode s.cfg.maxOperand c.word c.operand = .command i ∧ step s = exec i { s with pending := rest }) ∨
        ∃ w, decode s.cfg.maxOperand c.word c.operand = .illegalCommand w ∧
          step s = .next { s with pending := rest, fault := some (.illegalCommand w) })) := by
  unfold step
  cases hf : s.fault with
  | some r => exact .inl ⟨r, rfl, rfl⟩
  | none =>
    cases hp : s.pending with
    | nil => exact .inr (.inl ⟨rfl, rfl, by simp [State.nextIssue_nil hp]⟩)
    | cons c rest =>
      refine .inr (.inr ⟨rfl, c, rest, rfl, ?_⟩)
      simp only [State.nextIssue_cons hp]
      cases hd : decode s.cfg.maxOperand c.word c.operand with
      | command i => exact .inl ⟨i, rfl, by rw [← hf]⟩
      | illegalCommand w => exact .inr ⟨w, rfl, by simp [State.raise, hf]⟩

end Sys2Proof.Machine
end

