-- ==== Sys2Proof/Tests/Slice0.lean ====
section
/-! SUPPORT. Own tests: the well-formedness smoke, words written out bit by bit, single steps with results taken from
95_test_vectors.md, and for every statement with hypotheses a state and operands that meet them. -/

namespace Sys2Proof.Tests
open Sys2Proof Sys2Proof.Machine

/-! ### Helpers -/

/-- A small block: LINK_CAP 8, SMALL_CAP 4, PAYLOAD_CAP 4, WAIT_BUDGET 2, EXPLICIT. -/
def cfg8 : Config := ⟨8, 4, 4, 2, .explicit, 0x1B, none, 0⟩

/-- A block with LINK_CAP 32 and room for 9-byte texts, EVERY_CR. -/
def cfg32 : Config := ⟨32, 10, 10, 2, .everyCr, 0x1B, none, 0⟩

/-- A channel whose tail is at slot t and which had x pushed into it. -/
def chan (cap t : Nat) (x : Text) : Channel :=
  match pushString cap ⟨[], t, t⟩ x with
  | .ok ch => ch
  | .error _ => ⟨[], 0, 0⟩

/-- A power-on block whose channels hold these bytes from slot t on; each counter is the number of CRs. -/
def holding (c : Config) (t : Nat) (mrx mtx trx ttx : Text) : State :=
  { State.powerOn c with
    m := ⟨chan c.linkCap t mrx, chan c.linkCap t mtx, satIncEach 0 mrx, []⟩
    t := ⟨chan c.linkCap t trx, chan c.linkCap t ttx, satIncEach 0 trx, []⟩ }

/-- The same with the module link's channels only, from slot 6 of 8 on, so that indices wrap. -/
def mHolds (mrx mtx : Text) : State := holding cfg8 6 mrx mtx [] []

/-- The next state, if there is one. -/
def after (o : Host.Outcome State Fault Refusal) : Option State :=
  match o with
  | .next s => some s
  | .fault _ => none
  | .refused _ => none

/-- The last response word and its texts. -/
def answer (o : Host.Outcome State Fault Refusal) : Option Response := (after o).bind fun s => s.responses.getLast?

def look {α : Type} (o : Host.Outcome State Fault Refusal) (f : State → α) : Option α := (after o).map f

/-- An endpoint as a frame "\eU0" "a" SP "9" TAB ... teaches it. -/
def learned (s : State) : State := { s with ep := { s.ep with valid := true, cid := 0x30, ip := [0x61], port := [0x39] } }

/-! ### WellFormed and Config: each check refuses an ill-formed term -/

theorem test_wf_refuses_long_operand : (Instr.probe .m [1, 2, 3]).wf (some 2) = false := by decide
theorem test_wf_accepts_longest_operand : (Instr.probe .m [1, 2]).wf (some 2) = true := by decide
theorem test_config_refuses_link_cap : ¬ Config.wf { cfg8 with linkCap := 1 } := by decide
theorem test_config_refuses_small_cap : ¬ Config.wf { cfg8 with smallCap := 0 } := by decide
theorem test_config_refuses_payload_cap : ¬ Config.wf { cfg8 with payloadCap := 0 } := by decide
theorem test_state_refuses_index : ¬ Channel.wf 8 ⟨[], 8, 0⟩ := by decide
theorem test_state_refuses_unwritten_content : ¬ Channel.wf 8 ⟨[], 1, 0⟩ := by decide
theorem test_memory_refuses_disorder : ¬ Memory.wf [(1, 0), (0, 0)] := by decide
theorem test_decoder_refuses_long_text : ¬ Decoder.wf cfg8 { Decoder.reset with ip := [1, 2, 3, 4] } := by decide

/-! ### Decoding: words written out from R80, OP L D Z IMM -/

theorem test_decode_push : decode none 0b00001_1_0_0_00001010 [] = .command (.chPush .t .rx 0x0A) := by decide
theorem test_decode_pop : decode none 0b00010_0_1_0_00000000 [] = .command (.chPop .m .tx) := by decide
theorem test_decode_avail : decode none 0b00011_1_1_0_00000000 [] = .command (.chAvail .t .tx) := by decide
theorem test_decode_probe : decode none 0b00100_1_0_0_00000000 [0x4F] = .command (.probe .t [0x4F]) := by decide
theorem test_decode_extract : decode none 0b00101_0_0_0_00100000 [] = .command (.extract .m 32) := by decide
theorem test_decode_skip : decode none 0b00110_1_0_0_00000000 [] = .command (.skip .t) := by decide
theorem test_decode_execute : decode none 0b01000_0_0_0_00000000 [0x41] = .command (.execute [0x41]) := by decide
theorem test_decode_send_raw : decode none 0b01001_1_1_0_00000000 [0x68] = .command (.sendRaw .t [0x68]) := by decide
theorem test_decode_send_udp : decode none 0b01010_0_1_0_00000000 [0x58] = .command (.sendUdp [0x58]) := by decide
theorem test_decode_try_recv : decode none 0b01011_0_0_0_00000000 [] = .command .tryRecv := by decide
theorem test_decode_reset : decode none 0b01100_1_0_0_00000000 [] = .command (.resetLink .t) := by decide
theorem test_decode_service : decode none 0b01101_0_0_0_00000000 [] = .command .service := by decide

/-- V-I1 to V-I9a, and an operand one byte too long (R87). -/
theorem test_decode_illegal :
    [decode none 0x0000 [], decode none 0x1001 [], decode none 0x2200 [0x4F], decode none 0x3800 [], decode none 0x1000 [0x78],
     decode none 0x0900 [], decode none 0x7000 [], decode none 0x5600 [0x58], decode none 0x5A00 [],
     decode (some 1) 0x2000 [0x4F, 0x4B]] =
    [.illegalCommand 0x0000, .illegalCommand 0x1001, .illegalCommand 0x2200, .illegalCommand 0x3800, .illegalCommand 0x1000,
     .illegalCommand 0x0900, .illegalCommand 0x7000, .illegalCommand 0x5600, .illegalCommand 0x5A00,
     .illegalCommand 0x2000] := by decide

theorem test_table_word : decodeTableWord 16 0x4E00 = some (.sendRaw .t []) := by decide
theorem test_table_word_illegal : decodeTableWord 16 0x4400 = none := by decide
theorem test_fetch_word : look (step ((mHolds [] []).withFetchWord 16 0x0A41)) (fun s => s.content .m .tx) = some [0x41] := by decide
theorem test_reset_runs_push : look (step (State.reset.withFetchWord 16 0x0C0A)) (fun s => s.content .t .rx) = some [0x0A] := by
  decide

/-! ### Byte channel (95 §2.1) -/

/-- V-B5: an evicted CR is not counted off. -/
theorem test_push_evicts : look (exec (.chPush .m .rx 0x63) (holding { cfg8 with linkCap := 4 } 0 [0x0D, 0x61, 0x62] [] [] []))
    (fun s => (s.content .m .rx, s.m.pcr)) = some ([0x61, 0x62, 0x63], 1) := by decide
/-- V-B6 -/
theorem test_push_saturates : look (exec (.chPush .m .rx 0x0D) { mHolds [] [] with m := { LinkState.reset with pcr := 0xFFFF } })
    (fun s => s.m.pcr) = some 0xFFFF := by decide
/-- V-B7: head and tail wrap. -/
theorem test_pop_wraps : look (exec (.chPop .m .tx) (holding { cfg8 with linkCap := 4 } 3 [] [0x78] [] []))
    (fun s => (s.responses, s.m.tx.tail)) = some ([⟨0x0178, []⟩], 0) := by decide
/-- V-B9 under EVERY_CR -/
theorem test_pop_counts_cr : look (exec (.chPop .m .rx) (holding cfg32 0 [0x0D] [] [] [])) (fun s => (s.responses, s.m.pcr)) =
    some ([⟨0x010D, []⟩], 0) := by decide
/-- V-B11 -/
theorem test_avail : (answer (exec (.chAvail .m .rx) (mHolds [0x78] [])), answer (exec (.chAvail .m .tx) (mHolds [0x78] []))) =
    (some ⟨0x0001, []⟩, some ⟨0x0000, []⟩) := by decide
/-- V-B8 -/
theorem test_service : look (exec .service { mHolds [] [0x68, 0x69] with draws := [⟨[0x41, 0x42], 5, [], 0⟩] })
    (fun s => (s.content .m .rx, s.content .m .tx, s.m.wire)) = some ([0x41, 0x42], [], [0x68, 0x69]) := by decide

/-! ### Matcher (95 §2.2) -/

/-- V-M9: a CR inside a marker counts under EVERY_CR. -/
theorem test_probe_marker : look (exec (.probe .m tokenOK) (holding cfg32 30 [0x1B, 0x41, 0x0D, 0x4F, 0x4B, 0x0D] [] [] []))
    (fun s => (s.responses, s.content .m .rx, s.m.pcr)) = some ([⟨0x0001, []⟩], [], 0) := by decide
/-- V-M14: one LF only is skipped. -/
theorem test_probe_two_lf : look (exec (.probe .m tokenOK) (mHolds [0x0A, 0x0A, 0x4F, 0x4B, 0x0D] []))
    (fun s => (s.responses, s.m)) = some ([⟨0x0000, []⟩], (mHolds [0x0A, 0x0A, 0x4F, 0x4B, 0x0D] []).m) := by decide
/-- V-X4: a NUL ends the line without a decrement. -/
theorem test_extract_nul : look (exec (.extract .m 32) (mHolds [0x41, 0x42, 0x00, 0x43, 0x44, 0x0D] []))
    (fun s => (s.responses, s.content .m .rx, s.m.pcr)) = some ([⟨0x0002, [[0x41, 0x42]]⟩], [0x43, 0x44, 0x0D], 1) := by decide
/-- V-X7b: the text is cut, the line consumed. -/
theorem test_extract_cut : look (exec (.extract .m 2) (mHolds [0x41, 0x42, 0x0D] [])) (fun s => (s.responses, s.m.pcr)) =
    some ([⟨0x0001, [[0x41]]⟩], 0) := by decide
/-- V-S4 -/
theorem test_skip : look (exec (.skip .m) (mHolds [0x61, 0x00, 0x62, 0x0D, 0x63] [])) (fun s => (s.content .m .rx, s.m.pcr)) =
    some ([0x63], 0) := by decide
/-- V-S2 -/
theorem test_skip_empties : look (exec (.skip .m) { mHolds [] [] with m := { (mHolds [0x61, 0x62] []).m with pcr := 3 } })
    (fun s => (s.content .m .rx, s.m.pcr)) = some ([], 0) := by decide

/-! ### Engine (95 §2.3) -/

/-- V-E5 in small: a line is captured, then the budget runs out. -/
theorem test_execute_line : look (exec (.execute [0x41]) { mHolds [] [] with draws := [⟨[0x62, 0x0D], 0, [], 0⟩, ⟨[], 1, [], 0⟩] })
    (fun s => (s.responses, s.m.wire)) = some ([⟨0x0102, [[0x62]]⟩], [0x41]) := by decide
/-- V-E7: nothing is classified before the CR arrives. -/
theorem test_execute_ok : look (exec (.execute []) { mHolds [] [] with draws := [⟨[0x4F], 0, [], 0⟩, ⟨[0x4B, 0x0D], 0, [], 0⟩] })
    (fun s => (s.responses, s.serviced)) = some ([⟨0x0000, []⟩], 2) := by decide

/-! ### Frame decoder and encoder (95 §2.4, 2.5) -/

/-- V-D8 in small: the first frame only, and the tag stays. -/
theorem test_try_recv : look (exec .tryRecv (holding cfg32 30 [0x1B, 0x55, 0x31, 0x61, 0x20, 0x62, 0x09, 0x63, 0x1B, 0x45] [] [] []))
    (fun s => (s.responses, s.content .m .rx)) = some ([⟨0x0131, [[0x61], [0x62], [0x63]]⟩], [0x45]) := by decide
/-- V-D4: the partial frame is parked. -/
theorem test_try_recv_parks : look (exec .tryRecv (mHolds [0x1B, 0x55, 0x37, 0x31, 0x2E, 0x32] [])) (fun s => s.dec) =
    some ⟨.readingIp, 0x37, [0x31, 0x2E, 0x32], [], []⟩ := by decide
/-- V-F2 in small -/
theorem test_send_udp : look (exec (.sendUdp [0x58]) (learned (holding cfg32 30 [] [] [] []))) (fun s => s.content .m .tx) =
    some [0x1B, 0x55, 0x30, 0x61, 0x3A, 0x39, 0x3A, 0x58, 0x1B, 0x45] := by decide
/-- V-F1 -/
theorem test_send_udp_unset : look (exec (.sendUdp [0x58]) (mHolds [] [])) (fun s => (s.fault, s.responses)) =
    some (some (.endpointUnset 0x5200), []) := by decide
/-- V-F4 -/
theorem test_send_raw : look (exec (.sendRaw .t [0x68, 0x69]) (mHolds [] [])) (fun s => (s.content .t .tx, s.content .m .tx)) =
    some ([0x68, 0x69], []) := by decide

/-! ### Link control (95 §2.6) -/

/-- V-R1: the endpoint survives. -/
theorem test_reset_m : look (exec (.resetLink .m) { learned (mHolds [0x0D] [0x61]) with dec := ⟨.readingIp, 1, [2], [], []⟩ })
    (fun s => (s.content .m .rx, s.dec, s.ep.valid)) = some ([], Decoder.reset, true) := by decide
/-- V-R2 -/
theorem test_reset_t : look (exec (.resetLink .t) (holding cfg8 6 [0x78] [] [0x61, 0x0D] [])) (fun s => (s.content .m .rx, s.t.pcr)) =
    some ([0x78], 0) := by decide
/-- V-R3 -/
theorem test_reset_faulted : after (exec (.resetLink .m) { mHolds [] [] with fault := some (.endpointUnset 0x5200) }) = none := by
  decide

/-! ### Assembler (R95, R96) -/

theorem test_assemble_escape : assembleLine 0x1B "SEND m, \"A\\x00\\e\"" = some [.sendRaw .m [0x41, 0x00, 0x1B]] := by decide
theorem test_assemble_refuses : assembleLine 0x1B "PUSH m.rx, 256" = none := by decide

/-! ### States and operands that meet the statements' hypotheses -/

/-- A full channel, a CR in it, indices wrapped. -/
def full : State := holding cfg8 6 [0x0D, 2, 3, 4, 5, 6, 7] [1, 2, 3, 4, 5, 6, 7] [1] []

theorem witness_wf : full.wf ∧ full.fault = none ∧ (full.content .m .rx).length = 8 - 1 := by decide
theorem witness_PowerOnIsWellFormed : Config.wf ⟨2, 1, 1, 0, .everyCr, 0x1B, some 0, 0⟩ := by decide
theorem witness_RecordedFaultStopsEveryCommand :
    ({ full with fault := some (.illegalCommand 0xFFFF) } : State).fault = some (.illegalCommand 0xFFFF) := by decide
theorem witness_RaisingAFaultIsPrecise :
    let s : State := { full with pending := [⟨0xFFFF, []⟩] }
    s.fault = none ∧ decode s.cfg.maxOperand 0xFFFF [] = .illegalCommand 0xFFFF ∧ s.ep.valid = false := by decide
theorem witness_ExactlyTwoCausesOfAFault_illegal :
    look (step { full with pending := [⟨0x0000, []⟩] }) (fun t => t.fault) = some (some (.illegalCommand 0x0000)) := by decide
theorem witness_ExactlyTwoCausesOfAFault_unset :
    look (step { full with pending := [⟨0x5200, [1]⟩] }) (fun t => t.fault) = some (some (.endpointUnset 0x5200)) := by decide
theorem witness_StepRunsTheDecodedCommand :
    full.fault = none ∧ full.pending = [] ∧ decode full.cfg.maxOperand 0x6400 [] = .command (.resetLink .t) ∧
      decode full.cfg.maxOperand (tableWord 16 0x6400) [] = .command (.resetLink .t) ∧
      (Instr.execute [1]).wf full.cfg.maxOperand = true := by decide
theorem witness_StepsKeepTheStateWellFormed :
    full.wf ∧ (after (step { full with pending := [⟨0x080D, []⟩] })).isSome ∧ (after (exec (.skip .m) full)).isSome := by decide
theorem witness_ReachableChannelsAreNeverFull : full.wf ∧ Reaches full full := ⟨by decide, .refl _⟩
theorem witness_TracesAreNeverShortened :
    look (step { full with pending := [⟨0x6800, []⟩], draws := [⟨[1], 1, [], 0⟩] }) (fun t => t.m.wire) = some [1] := by decide
theorem witness_ALearnedEndpointStaysLearned :
    (learned full).ep.valid = true ∧ (after (step { learned full with pending := [⟨0x5800, []⟩] })).isSome := by decide
theorem witness_DecodeOfEncode : (Instr.sendUdp [1, 2]).wf (some 2) = true := by decide
theorem witness_EncodeOfDecode : decode (some 1) 0x2400 [0x4F] = .command (.probe .t [0x4F]) := by decide
theorem witness_IllegalWordsAreExactlyTheRest :
    decode (some 1) 0x2000 [1] = .command (.probe .m [1]) ∧ decode (some 1) 0x2000 [1, 2] = .illegalCommand 0x2000 ∧
      ({ full with cfg := { cfg8 with maxOperand := some 1 } } : State).fault = none := by decide
theorem witness_IllegalWordsAreExactlyTheRest_fields : ¬ (legalFields 0x4400 [] ∧ operandFits none [] = true) := by
  rintro ⟨⟨-, h⟩, -⟩
  exact absurd h.1 (by decide)
theorem witness_RowsSpellTheirCommands :
    (⟨.EXTRACT, 0x2800, 0xFB00, false⟩ : Row) ∈ opcodeTable ∧ Row.accepts ⟨.EXTRACT, 0x2800, 0xFB00, false⟩ 0x2CFF = true := by
  decide
theorem witness_PushWritesHeadAndEvicts : (⟨[], 7, 0⟩ : Channel).head < 8 := by decide
theorem witness_OverflowDropsTheOldestBytes : 2 ≤ 2 ∧ Channel.wf 2 (chan 2 1 [0x61]) := by decide
theorem witness_ChPopTakesTheOldestByte :
    full.content .m .rx = 0x0D :: [2, 3, 4, 5, 6, 7] ∧ full.content .t .tx = [] := by decide
theorem witness_ServiceExchangesBothLinks :
    let s : State := { full with draws := [⟨[0x0D], 8, [1, 2], 0⟩] }
    s.wf ∧ s.fault = none := by decide
theorem witness_FailedProbeChangesNothing :
    look (exec (.probe .m [1]) full) (fun t => t.responses) = some (full.responses ++ [⟨0x0000, []⟩]) := by decide

/-- The channel "OK CR" of the probe's witnesses. -/
def okCr : State := mHolds [0x4F, 0x4B, 0x0D] []

theorem spells_ok : Spells 0x1B [0x4F, 0x4B] [0x4F, 0x4B] :=
  ⟨[[0x4F], [0x4B]], .cons (.plain _ (by decide) (by decide)) (.cons (.plain _ (by decide) (by decide)) .nil), rfl⟩
theorem witness_ProbeMatchesNormalisedBytes_cr : okCr.wf ∧ okCr.fault = none ∧ Spells okCr.cfg.escByte [0x4F, 0x4B] [0x4F, 0x4B] ∧
    okCr.content .m .rx = [0x4F, 0x4B] ++ [0x0D] ∧ NormUnit okCr.cfg.escByte [0x0D] 0x0D :=
  ⟨by decide, by decide, spells_ok, by decide, .plain _ (by decide) (by decide)⟩
theorem witness_ProbeMatchesNormalisedBytes_noCr :
    Spells okCr.cfg.escByte [0x4F, 0x4B] [0x4F, 0x4B] ∧ (mHolds [0x4F, 0x4B] []).content .m .rx = [0x4F, 0x4B] ++ [] ∧
      ¬ ∃ v r', NormUnit okCr.cfg.escByte v 0x0D ∧ ([] : Text) = v ++ r' :=
  ⟨spells_ok, by decide, by rintro ⟨v, r', h, e⟩; cases h <;> cases e⟩
theorem witness_ProbeMatchesNormalisedBytes_fails : ¬ Found okCr.cfg.escByte ((mHolds [] []).content .m .rx) [0x4F] := by
  rintro ⟨u, r, ⟨us, h, rfl⟩, e⟩
  cases h with
  | cons h₁ _ => cases h₁ <;> exact absurd e (by simp [show (mHolds [] []).content .m .rx = [] by decide])
theorem witness_ProbeOkToleratesALineFeed :
    (mHolds [0x4F, 0x4B, 0x0A, 0x0D] []).content .m .rx = [0x4F, 0x4B, 0x0A, 0x0D] ++ [] ∧ okCr.cfg.escByte = 0x1B ∧
      okCr.content .m .rx = [0x4F, 0x4B, 0x0D] ++ [] := by decide
theorem witness_ExtractCopiesOneLine :
    noTerminator [0x41] ∧ (mHolds [0x41, 0x0D] []).content .m .rx = [0x41] ++ 0x0D :: [] ∧
      (mHolds [0x41, 0x00, 1] []).content .m .rx = [0x41] ++ 0x00 :: [1] ∧ (mHolds [0x41] []).content .m .rx = [0x41] ∧
      (mHolds [0x41] []).wf := ⟨⟨by decide, by decide⟩, by decide⟩
theorem witness_SkipDiscardsOneLine :
    (0x0D : Byte) ∉ ([0x41] : Text) ∧ (mHolds [0x41, 0x0D] []).content .m .rx = [0x41] ++ 0x0D :: [] ∧
      (mHolds [0x41] []).content .m .rx = [0x41] := by decide

/-- An EXECUTE whose first service receives x. -/
def receiving (x : Text) (budget : Nat) : State :=
  { holding { cfg8 with waitBudget := budget } 6 [] [] [] [] with draws := [⟨x, 0, [], 0⟩] }

theorem witness_OkIsTriedBeforeError_ok :
    let s := receiving [0x4F, 0x4B, 0x0D] 1
    s.wf ∧ 1 ≤ s.cfg.waitBudget ∧ satIncEach s.m.pcr s.nextDraw.rxM ≠ 0 ∧
      Found s.cfg.escByte (lastN (s.cfg.linkCap - 1) (s.content .m .rx ++ s.nextDraw.rxM)) tokenOK :=
  ⟨by decide, by decide, by decide, _, [0x0D], spells_ok, by decide⟩
theorem not_found_ok (b : Byte) (r : Text) (h : b ≠ 0x4F) (h₁ : b ≠ 0x0A) (h₂ : b ≠ 0x1B) : ¬ Found 0x1B (b :: r) tokenOK := by
  rintro ⟨u, r', ⟨us, hs, rfl⟩, e⟩
  cases hs with
  | cons hu _ => cases hu <;> simp at e <;> first | exact h e.1 | exact h₁ e.1 | exact h₂ e.1
theorem witness_OkIsTriedBeforeError_error :
    let s := receiving [0x45, 0x52, 0x52, 0x4F, 0x52, 0x0D] 1
    let q := lastN (s.cfg.linkCap - 1) (s.content .m .rx ++ s.nextDraw.rxM)
    ¬ Found s.cfg.escByte q tokenOK ∧ Found s.cfg.escByte q tokenERROR :=
  ⟨not_found_ok 0x45 _ (by decide) (by decide) (by decide), [0x45, 0x52, 0x52, 0x4F, 0x52], [0x0D],
    ⟨[[0x45], [0x52], [0x52], [0x4F], [0x52]],
      .cons (.plain _ (by decide) (by decide)) (.cons (.plain _ (by decide) (by decide)) (.cons (.plain _ (by decide) (by decide))
        (.cons (.plain _ (by decide) (by decide)) (.cons (.plain _ (by decide) (by decide)) .nil)))), rfl⟩, by decide⟩
theorem not_found_error (b : Byte) (r : Text) (h : b ≠ 0x45) (h₁ : b ≠ 0x0A) (h₂ : b ≠ 0x1B) :
    ¬ Found 0x1B (b :: r) tokenERROR := by
  rintro ⟨u, r', ⟨us, hs, rfl⟩, e⟩
  cases hs with
  | cons hu _ => cases hu <;> simp at e <;> first | exact h e.1 | exact h₁ e.1 | exact h₂ e.1
theorem witness_OkIsTriedBeforeError_line :
    let s := receiving [0x41, 0x0D] 1
    let q := lastN (s.cfg.linkCap - 1) (s.content .m .rx ++ s.nextDraw.rxM)
    ¬ Found s.cfg.escByte q tokenOK ∧ ¬ Found s.cfg.escByte q tokenERROR ∧ s.cfg.waitBudget = 1 ∧ noTerminator [0x41] ∧
      q = [0x41] ++ 0x0D :: [] :=
  ⟨not_found_ok 0x41 _ (by decide) (by decide) (by decide), not_found_error 0x41 _ (by decide) (by decide) (by decide), by decide,
    ⟨by decide, by decide⟩, by decide⟩
theorem witness_OkIsTriedBeforeError_quiet :
    let s := receiving [0x41] 1
    satIncEach s.m.pcr s.nextDraw.rxM = 0 ∧ s.cfg.waitBudget = 1 := by decide
theorem witness_SilentPeerTimesOutWithoutLoss :
    let s : State := { holding cfg8 6 [1] [1, 2, 3] [1, 2, 3] [1] with draws := [⟨[], 2, [1, 2], 0⟩, ⟨[], 0, [3, 4], 1⟩] }
    s.wf ∧ s.m.pcr = 0 ∧ (∀ d ∈ s.drawsAhead s.cfg.waitBudget, d.rxM = []) ∧
      (s.content .m .tx).length + ([4, 5, 6, 7] : Text).length ≤ s.cfg.linkCap - 1 ∧
      (s.content .t .rx).length + receivedT (s.drawsAhead s.cfg.waitBudget) ≤ s.cfg.linkCap - 1 := by decide
theorem witness_DecoderFollowsTheTable : cfg8.escByte ≠ 0x55 := by decide

/-- A frame with bytes before and after it; its IP longer than its buffer in cfg32. -/
def framed : State :=
  holding cfg32 30 ([0x4F] ++ inboundFrame 0x1B 0x30 [1, 2, 3, 4, 5, 6, 7, 8, 9, 0x61] [0x62] [] ++ [0x45]) [] [] []

theorem witness_WellFormedFrameIsDelivered :
    framed.wf ∧ framed.fault = none ∧ framed.dec.st = .idle ∧ framed.cfg.escByte ≠ 0x20 ∧ framed.cfg.escByte ≠ 0x09 ∧
      framed.cfg.escByte ∉ ([0x4F] : Text) ∧ framed.cfg.escByte ∉ ([1, 2, 3, 4, 5, 6, 7, 8, 9, 0x61] : Text) ∧
      (0x20 : Byte) ∉ ([1, 2, 3, 4, 5, 6, 7, 8, 9, 0x61] : Text) ∧ framed.cfg.escByte ∉ ([0x62] : Text) ∧
      (0x09 : Byte) ∉ ([0x62] : Text) ∧
      framed.content .m .rx =
        [0x4F] ++ inboundFrame 0x1B 0x30 [1, 2, 3, 4, 5, 6, 7, 8, 9, 0x61] [0x62] [] ++ [0x45] := by decide
theorem witness_AParkedFrameContinues :
    let s := holding cfg32 0 [0x1B, 0x55] [] [] []
    let u : State := { holding cfg32 0 [0x30, 0x61] [] [] [] with dec := ⟨.sawU, 0, [], [], []⟩ }
    let v := holding cfg32 0 [0x1B, 0x55, 0x30, 0x61] [] [] []
    s.wf ∧ u.wf ∧ v.wf ∧ look (exec .tryRecv s) (fun t => (t.responses, t.dec)) = some (s.responses ++ [⟨0x0000, []⟩], u.dec) ∧
      u.cfg = s.cfg ∧ v.cfg = s.cfg ∧ v.dec = s.dec ∧ v.content .m .rx = s.content .m .rx ++ u.content .m .rx :=
  ⟨by decide, by decide, by decide, by decide, rfl, rfl, rfl, by decide⟩
theorem witness_FrameWithoutSpaceIsNotDelivered :
    let s := holding cfg32 0 ([0x1B, 0x55, 0x30] ++ [0x61, 0x09] ++ [0x1B] ++ [0x45]) [] [] []
    s.wf ∧ s.dec.st = .idle ∧ (0x1B : Byte) ∉ ([0x61, 0x09] : Text) ∧ (0x20 : Byte) ∉ ([0x61, 0x09] : Text) ∧
      s.content .m .rx = [s.cfg.escByte, 0x55, 0x30] ++ [0x61, 0x09] ++ [s.cfg.escByte] ++ [0x45] := by decide
theorem witness_SendUdpWritesItsFrame :
    (learned full).wf ∧ (learned full).fault = none ∧ (learned full).ep.valid = true ∧ full.ep.valid = false := by decide

/-- The sender of the round trip, and a receiver of the translated frame. -/
def sender : State := learned (holding cfg32 30 [] [] [] [])
def receiver : State :=
  learned (holding cfg32 3 [0x1B, 0x55, 0x30, 0x61, 0x20, 0x39, 0x09, 0x58, 0x1B, 0x45] [] [] [])

theorem witness_UdpRoundTrip :
    sender.wf ∧ sender.fault = none ∧ sender.cfg.escByte = 0x1B ∧ sender.ep.valid = true ∧
      (∀ b ∈ sender.ep.ip, isPrintable b = true ∧ b ≠ 0x20) ∧ (∀ b ∈ sender.ep.port, isPrintable b = true) ∧
      (∀ b ∈ ([0x58] : Text), isPrintable b = true) ∧ ([0x58] : Text).length ≤ sender.cfg.payloadCap - 1 ∧
      sender.content .m .tx = [] ∧
      7 + sender.ep.ip.length + sender.ep.port.length + ([0x58] : Text).length ≤ sender.cfg.linkCap - 1 ∧ receiver.wf ∧ receiver.fault = none ∧
      receiver.cfg = sender.cfg ∧ receiver.ep = sender.ep ∧ receiver.dec.st = .idle ∧
      look (exec (.sendUdp [0x58]) sender) (fun t => ((t.content .m .tx).set 4 0x20).set 6 0x09) =
        some (receiver.content .m .rx) :=
  ⟨by decide, by decide, by decide, by decide, by decide, by decide, by decide, by decide, by decide, by decide, by decide,
    by decide, rfl, rfl, rfl, by decide⟩
theorem witness_ResetLinkClearsItsLink : full.fault = none := by decide
theorem witness_CommandsWriteOnlyTheirParts :
    (after (exec (.chPush .m .rx 0x61) full)).isSome ∧ mayWrite full.cfg.crAccounting (.chPush .m .rx 0x61) (.pcr .m) = false := by
  decide
theorem witness_LinksShareNoState :
    let s : State := { full with draws := [⟨[1], 1, [], 0⟩] }
    let s' : State := { s with t := LinkState.reset }
    s.link .m = s'.link .m ∧ s ≠ s' ∧ (after (exec .service s)).isSome ∧ (after (exec .service s')).isSome ∧
      Machine.Instr.oneLink (.skip .t) = some .t := by decide

/-- Two states that hold the same bytes at different slots. -/
theorem witness_StorageOutsideContentIsNotObservable :
    let s := holding cfg8 0 [1, 2] [] [] []
    let s' := holding cfg8 7 [1, 2] [] [] []
    s.wf ∧ s'.wf ∧ s.abs = s'.abs ∧ s ≠ s' := ⟨by decide, by decide, rfl, by decide⟩

end Sys2Proof.Tests
end

section
/-! PROOFS. The pending-CR counter, power-on reset, the encoding's round trip, and what one step executes
(00_scope.md R3, R6, R9; 10_state.md R36; 30_encoding.md R80, R87; 70_reset_and_hazards.md R240). -/

namespace Sys2Proof.Machine

/-! ### The pending-CR counter (R6, R36) -/

theorem satInc_toNat (c : BitVec 16) : (satInc c).toNat = min (c.toNat + 1) 0xFFFF := by
  unfold satInc
  split_ifs with hmax
  · simp [hmax]
  · have hlt : c.toNat < 0xFFFF := by bv_omega
    rw [min_eq_left (by omega)]
    bv_omega

theorem satDec_toNat (c : BitVec 16) : (satDec c).toNat = c.toNat - 1 := by
  unfold satDec
  split_ifs with hzero
  · simp [hzero]
  · have hpos : 1 ≤ c.toNat := by bv_omega
    exact BitVec.toNat_sub_of_le hpos

/-! ### Power-on (R240) -/

theorem Channel.reset_wf {cap : Nat} (hcap : 2 ≤ cap) : Channel.wf cap Channel.reset := by
  have hcount : Channel.reset.count cap = 0 := by simp [Channel.count, Channel.reset, modSub]
  have hslot : 0 < cap := by omega
  exact ⟨List.Pairwise.nil, by simp [Channel.reset], hslot, hslot, by simp [hcount]⟩

theorem LinkState.reset_wf {cap : Nat} (hcap : 2 ≤ cap) : LinkState.wf cap LinkState.reset :=
  ⟨Channel.reset_wf hcap, Channel.reset_wf hcap⟩

/-- The empty texts of a cleared decoder fit every buffer (R39). -/
theorem Decoder.reset_wf (c : Config) : Decoder.wf c Decoder.reset :=
  ⟨Nat.zero_le _, Nat.zero_le _, Nat.zero_le _⟩

/-- The empty texts of the endpoint at power-on fit every buffer (R40). -/
theorem Endpoint.reset_wf (c : Config) : Endpoint.wf c Endpoint.reset := ⟨Nat.zero_le _, Nat.zero_le _⟩

theorem State.powerOn_wf {p : Config} (hp : p.wf) : (State.powerOn p).wf :=
  ⟨hp, LinkState.reset_wf hp.1, LinkState.reset_wf hp.1, Decoder.reset_wf p, Endpoint.reset_wf p⟩

/-- PAYLOAD_CAP is OPEN in the spec, and its free value is at least 1 (R3, log 1). -/
theorem one_le_asBuilt_payloadCap : 1 ≤ Config.asBuilt.payloadCap := Nat.le_add_left 1 _

theorem asBuilt_wf : Config.asBuilt.wf := ⟨by decide, by decide, one_le_asBuilt_payloadCap⟩

end Sys2Proof.Machine

namespace Sys2Proof.Laws

/-! ### The fields of an assembled word (R80, R81) -/

theorem assembleWord_getLsbD_ten (op : BitVec 5) (l d : BitVec 1) (imm : Byte) :
    (assembleWord op l d imm).getLsbD 10 = l.getLsbD 0 :=
  BitVec.getLsbD_append.trans (by simp only [BitVec.getLsbD_append]; rfl)

theorem assembleWord_getLsbD_nine (op : BitVec 5) (l d : BitVec 1) (imm : Byte) :
    (assembleWord op l d imm).getLsbD 9 = d.getLsbD 0 :=
  BitVec.getLsbD_append.trans (by simp only [BitVec.getLsbD_append]; rfl)

@[simp] theorem linkField_assembleWord (op : BitVec 5) (l : Link) (d : BitVec 1) (imm : Byte) :
    linkField (assembleWord op l.bit d imm) = l := by
  rw [linkField, assembleWord_getLsbD_ten]
  cases l <;> rfl

@[simp] theorem dirField_assembleWord (op : BitVec 5) (l : BitVec 1) (d : Dir) (imm : Byte) :
    dirField (assembleWord op l d.bit imm) = d := by
  rw [dirField, assembleWord_getLsbD_nine]
  cases d <;> rfl

@[simp] theorem immField_assembleWord (op : BitVec 5) (l d : BitVec 1) (imm : Byte) :
    immField (assembleWord op l d imm) = imm :=
  BitVec.extractLsb'_append_eq_right

/-! ### Decoding a command's own word (R84, R85, R87) -/

theorem encodingMatchesRow (i : Instr) : EncodingMatchesRow.Statement i := by
  cases i with
  | chPush l d b => exact EncodingMatchesRow.chPush l d b
  | chPop l d => exact EncodingMatchesRow.chPop l d
  | chAvail l d => exact EncodingMatchesRow.chAvail l d
  | probe l e => exact EncodingMatchesRow.probe l e
  | extract l cap => exact EncodingMatchesRow.extract l cap
  | skip l => exact EncodingMatchesRow.skip l
  | execute x => exact EncodingMatchesRow.execute x
  | sendRaw l x => exact EncodingMatchesRow.sendRaw l x
  | sendUdp x => exact EncodingMatchesRow.sendUdp x
  | tryRecv => exact EncodingMatchesRow.tryRecv
  | resetLink l => exact EncodingMatchesRow.resetLink l
  | service => exact EncodingMatchesRow.service

/-- The decoder's search finds the row of the command's mnemonic, the only one that accepts its word. -/
theorem find_row_commandWord (i : Instr) :
    ∃ r, opcodeTable.find? (fun r => r.accepts (commandWord i)) = some r ∧ r.mnemonic = mnemonicOf i ∧
      (r.takesOperand = false → i.operand = []) := by
  obtain ⟨r, hrows, hmnemonic, hoperand⟩ := encodingMatchesRow i
  exact ⟨r, by rw [← List.head?_filter, hrows]; rfl, hmnemonic, hoperand⟩

/-- Each field a command needs is read back from its own word. -/
theorem build_commandWord (i : Instr) : (mnemonicOf i).build (commandWord i) i.operand = i := by
  cases i <;> simp [mnemonicOf, Mnemonic.build, commandWord, Instr.operand]

theorem decode_of_find {mo : Option Nat} {w : Word} {ops : Text} {r : Row}
    (hfind : opcodeTable.find? (fun r => r.accepts w) = some r) (hfits : operandFits mo ops = true)
    (hoperand : r.takesOperand = false → ops = []) : decode mo w ops = .command (r.mnemonic.build w ops) := by
  have hcolumn : (!r.takesOperand && !ops.isEmpty) = false := by
    cases htakes : r.takesOperand with
    | true => rfl
    | false => simp [hoperand htakes]
  simp only [decode, hfind, hfits, hcolumn, Bool.not_true, Bool.false_eq_true, if_false]

/-- The decoder reads each command back from its word and operand string. -/
theorem decode_commandWord {mo : Option Nat} {i : Instr} (hwf : i.wf mo = true) :
    decode mo (commandWord i) i.operand = .command i := by
  obtain ⟨r, hfind, hmnemonic, hoperand⟩ := find_row_commandWord i
  rw [decode_of_find hfind hwf hoperand, hmnemonic, build_commandWord]

end Sys2Proof.Laws

namespace Sys2Proof.Machine

/-! ### What one step executes (R9, R216) -/

theorem step_of_decode {s : State} {c : Issue} {rest : List Issue} {i : Instr} (hfault : s.fault = none)
    (hpending : s.pending = c :: rest) (hdecode : decode s.cfg.maxOperand c.word c.operand = .command i) :
    step s = exec i { s with pending := rest } := by
  unfold step
  split
  · next hsome => simp [hfault] at hsome
  · simp only [State.nextIssue_cons hpending, hdecode]

theorem step_issueFirst {s : State} {c : Issue} {i : Instr} (hfault : s.fault = none)
    (hdecode : decode s.cfg.maxOperand c.word c.operand = .command i) : step (s.issueFirst c) = exec i s :=
  step_of_decode (s := s.issueFirst c) hfault rfl hdecode

theorem step_load_cons {s : State} {i : Instr} {rest : List Instr} {ds : List Draw} (hfault : s.fault = none)
    (hwf : i.wf s.cfg.maxOperand = true) : step (s.load (i :: rest) ds) = exec i (s.load rest ds) :=
  step_of_decode (s := s.load (i :: rest) ds) (c := Instr.issue i) hfault rfl (Laws.decode_commandWord hwf)

/-- With no command to issue the block waits (log 4). -/
theorem step_of_pending_nil {s : State} (hfault : s.fault = none) (hpending : s.pending = []) : step s = .next s := by
  simp [step, hfault, State.nextIssue_nil hpending]

/-! ### The statements -/

/-- Settles O2: each value is the one Config.asBuilt names; PAYLOAD_CAP is a successor. -/
theorem resetTakesTheDefaultParameters : Obligations.ResetTakesTheDefaultParameters :=
  ⟨rfl, rfl, rfl, rfl, rfl, rfl, rfl, one_le_asBuilt_payloadCap⟩

/-- Settles O3, field by field of the power-on state; reset is the one at Config.asBuilt. -/
theorem powerOnIsWellFormed : Obligations.PowerOnIsWellFormed :=
  ⟨fun _ hp => State.powerOn_wf hp, State.powerOn_wf asBuilt_wf⟩

/-- Settles O8. A word placed by withFetchWord and the head of a loaded program are both the head of the pending
commands, and a loaded command decodes to itself. -/
theorem stepRunsTheDecodedCommand : Obligations.StepRunsTheDecodedCommand :=
  ⟨fun _ _ _ _ hfault hpending hdecode => step_of_decode hfault hpending hdecode,
    fun _ _ _ _ hfault hdecode => step_issueFirst hfault hdecode,
    fun _ _ _ _ hfault hwf => step_load_cons hfault hwf,
    fun _ hfault hpending => step_of_pending_nil hfault hpending⟩

/-- Settles O20, each saturation at its end of the range and away from it. -/
theorem pendingCrSaturates : Obligations.PendingCrSaturates :=
  fun n => ⟨satInc_toNat n, satDec_toNat n⟩

end Sys2Proof.Machine
end

section
/-! PROOFS. The block with ring buffers against the block with byte queues: every command from every well-formed state
(10_state.md R31, R33, R34), and what follows from it: the state invariant, the bound on a channel's count, and that
storage outside the contents is not observable. -/

namespace Sys2Proof.Machine

/-! ### The state a queue state abstracts -/

@[simp] theorem State.abs_cfg (s : State) : s.abs.cfg = s.cfg := rfl

theorem State.abs_link (s : State) (l : Link) : s.abs.link l = (s.link l).abs s.cfg.linkCap := by cases l <;> rfl

theorem State.abs_setLink (s : State) (l : Link) (k : LinkState) :
    (s.setLink l k).abs = s.abs.setLink l (k.abs s.cfg.linkCap) := by cases l <;> rfl

@[simp] theorem State.abs_respond (s : State) (r : Response) : (s.respond r).abs = s.abs.respond r := rfl

/-! ### What keeps a state well-formed -/

theorem State.wf.two_le_linkCap {s : State} (h : s.wf) : 2 ≤ s.cfg.linkCap := by
  obtain ⟨⟨hcap, -, -⟩, -⟩ := h
  exact hcap

theorem State.wf.linkWf {s : State} (h : s.wf) (l : Link) : LinkState.wf s.cfg.linkCap (s.link l) := by
  obtain ⟨-, hm, ht, -, -⟩ := h
  cases l
  · exact hm
  · exact ht

/-- Each link of a well-formed state holds what the queue state says. -/
theorem State.wf.linkIs {s : State} (h : s.wf) (l : Link) : LinkIs s.cfg.linkCap (s.link l) (s.abs.link l) :=
  ⟨h.linkWf l, (s.abs_link l).symm⟩

theorem State.wf.linkIs_m {s : State} (h : s.wf) : LinkIs s.cfg.linkCap s.m s.abs.m := h.linkIs .m

theorem State.wf.setLink {s : State} (h : s.wf) (l : Link) {k : LinkState} (hk : LinkState.wf s.cfg.linkCap k) :
    (s.setLink l k).wf := by
  obtain ⟨hcfg, hm, ht, hdec, hep⟩ := h
  cases l
  · exact ⟨hcfg, hk, ht, hdec, hep⟩
  · exact ⟨hcfg, hm, hk, hdec, hep⟩

/-- A state with well-formed links that keeps the parameters, the decoder and the endpoint of a well-formed one. -/
theorem State.wf.of_links {s s' : State} (h : s.wf) (hlinks : LinksWf s') (hcfg : s'.cfg = s.cfg) (hdec : s'.dec = s.dec)
    (hep : s'.ep = s.ep) : s'.wf := by
  obtain ⟨hc, -, -, hd, he⟩ := h
  obtain ⟨-, hm, ht⟩ := hlinks
  exact ⟨hcfg ▸ hc, hm, ht, hcfg ▸ hdec ▸ hd, hcfg ▸ hep ▸ he⟩

/-! ### The endpoint after TRY_RECV -/

/-- The endpoint once TRY_RECV's loop has ended with the frame, if any (R168, R170). -/
def Endpoint.learn (ep : Endpoint) : Option Frame → Endpoint
  | none => ep
  | some f => updateEndpoint ep f

/-! ### Link operations on what a link holds -/

/-- Everything `rxTake` does to a well-formed link, empty or not (R102). -/
theorem rxTake_is {cfg : Config} {k : LinkState} {q : QLink} (h : LinkIs cfg.linkCap k q) :
    ∃ k', rxTake cfg k = .ok (q.rx.head?, k') ∧
      LinkIs cfg.linkCap k' { q with rx := q.rx.tail, pcr := takenPcr cfg.crAccounting q.pcr (q.rx.take 1) } := by
  obtain ⟨rx, tx, pcr, wire⟩ := q
  obtain ⟨hr, ht, rfl, rfl⟩ := linkIs_iff.1 h
  cases rx with
  | nil => exact ⟨k, rxTake_nil hr, linkIs_iff.2 ⟨hr, ht, (takenPcr_nil _ _).symm, rfl⟩⟩
  | cons b c =>
    obtain ⟨rx', htake, hc, -, -⟩ := rxTake_cons hr
    exact ⟨_, htake, linkIs_iff.2 ⟨hc, ht, by simp [takenPcr_cons, takenPcr_nil], rfl⟩⟩

/-- Everything `txPop` does to a well-formed link, empty or not (R105). -/
theorem txPop_is {cfg : Config} {k : LinkState} {q : QLink} (h : LinkIs cfg.linkCap k q) :
    ∃ k', txPop cfg k = .ok (q.tx.head?, k') ∧ LinkIs cfg.linkCap k' { q with tx := q.tx.tail } := by
  obtain ⟨rx, tx, pcr, wire⟩ := q
  obtain ⟨hr, ht, rfl, rfl⟩ := linkIs_iff.1 h
  cases tx with
  | nil => exact ⟨k, txPop_nil ht, linkIs_iff.2 ⟨hr, ht, rfl, rfl⟩⟩
  | cons b c =>
    obtain ⟨tx', hpop, hc, -, -⟩ := txPop_cons ht
    exact ⟨_, hpop, linkIs_iff.2 ⟨hr, hc, rfl, rfl⟩⟩

/-- Everything the loop of TRY_RECV does to a well-formed link, its fuel enough for the content (R168). -/
theorem recv_is {cfg : Config} {k : LinkState} {q : QLink} (d : Decoder) (h : LinkIs cfg.linkCap k q) :
    ∃ k', recvLoop cfg (k.rx.count cfg.linkCap + 1) k d =
        .ok ((decodeList cfg d q.rx).1, k', (decodeList cfg d q.rx).2.1) ∧
      LinkIs cfg.linkCap k' { q with
        rx := (decodeList cfg d q.rx).2.2
        pcr := takenPcr cfg.crAccounting q.pcr (consumed q.rx (decodeList cfg d q.rx).2.2) } := by
  obtain ⟨hr, ht, hp, hw⟩ := linkIs_iff.1 h
  obtain ⟨rx, hrecv, hrx, -⟩ := recvLoop_is d hr (Nat.lt_succ_self _)
  rw [hr.count_eq, ← hp]
  exact ⟨_, hrecv, linkIs_iff.2 ⟨hrx, ht, rfl, hw⟩⟩

/-- An emptied channel keeps its storage and holds nothing (R200). -/
theorem Channel.emptied_holds {cap : Nat} {ch : Channel} (h : Channel.wf cap ch) : Holds cap ch.emptied [] := by
  obtain ⟨hbuf, hslots, hhead, -, -⟩ := h
  exact holds_iff.2 ⟨hbuf, hslots, Nat.zero_lt_of_lt hhead, Nat.zero_lt_of_lt hhead, (Nat.zero_mod cap).symm,
    fun _ hi => absurd hi (Nat.not_lt_zero _)⟩

theorem LinkState.cleared_is {cap : Nat} {k : LinkState} {q : QLink} (h : LinkIs cap k q) :
    LinkIs cap k.cleared { q with rx := [], tx := [], pcr := 0 } := by
  obtain ⟨hr, ht, -, hw⟩ := linkIs_iff.1 h
  exact linkIs_iff.2 ⟨Channel.emptied_holds hr.1, Channel.emptied_holds ht.1, rfl, hw⟩

/-! ### One command (R33) -/

/-- The command completes in a well-formed state that holds what the queue machine computes. -/
def Refines (i : Instr) (s : State) : Prop := ∃ t, exec i s = .next t ∧ t.wf ∧ t.abs = QState.exec i s.abs

/-- A body that returns a response in a well-formed state. -/
theorem perform_refines {s s' : State} {body : Except Fault Completion} {r : Response} {q : QState}
    (hfault : s.fault = none) (hbody : body = .ok (.responds r s')) (hwf : s'.wf) (habs : s'.abs = q) :
    ∃ t, perform s body = .next t ∧ t.wf ∧ t.abs = q.respond r :=
  ⟨s'.respond r, hbody ▸ perform_responds hfault, hwf, by rw [State.abs_respond, habs]⟩

/-- A body that changes one link of a well-formed state, and holds there what a queue link says. -/
theorem onLink_refines {s : State} (l : Link) {body : Except Fault (Response × LinkState)} {r : Response} {k : LinkState}
    {q : QLink} (hwf : s.wf) (hfault : s.fault = none) (hbody : body = .ok (r, k)) (hk : LinkIs s.cfg.linkCap k q) :
    ∃ t, perform s (onLink s l body) = .next t ∧ t.wf ∧ t.abs = (s.abs.setLink l q).respond r := by
  obtain ⟨hkwf, hkabs⟩ := hk
  exact perform_refines hfault (hbody ▸ onLink_ok) (hwf.setLink l hkwf) (by rw [State.abs_setLink, hkabs])

/-- A delivered frame's texts fit the endpoint's buffers, which are the decoder's (R174). -/
theorem Endpoint.learn_wf {s : State} (hwf : s.wf) (x : Text) :
    Endpoint.wf s.cfg (s.ep.learn (decodeList s.cfg s.dec x).1) := by
  obtain ⟨-, -, -, hdec, hep⟩ := hwf
  cases hframe : (decodeList s.cfg s.dec x).1 with
  | none => exact hep
  | some f =>
    obtain ⟨hip, hport, -⟩ := decodeList_frame_wf x hdec hframe
    exact ⟨hip, hport⟩

section OneCommand

variable {s : State} (hwf : s.wf) (hfault : s.fault = none)
include hwf hfault

theorem chPush_refines (l : Link) (d : Dir) (b : Byte) : Refines (.chPush l d b) s := by
  cases d with
  | rx =>
    obtain ⟨rx, hpush, -, hk⟩ := rxPush_is b hwf.two_le_linkCap (hwf.linkIs l)
    exact onLink_refines l hwf hfault (by rw [linkPush, hpush]; rfl) hk
  | tx =>
    obtain ⟨tx, hpush, -, hk⟩ := txPush_is b hwf.two_le_linkCap (hwf.linkIs l)
    exact onLink_refines l hwf hfault (by rw [linkPush, hpush]; rfl) hk

theorem chPop_refines (l : Link) (d : Dir) : Refines (.chPop l d) s := by
  cases d with
  | rx =>
    obtain ⟨k, htake, hk⟩ := rxTake_is (hwf.linkIs l)
    exact onLink_refines l hwf hfault (by rw [linkTake, htake]; rfl) hk
  | tx =>
    obtain ⟨k, hpop, hk⟩ := txPop_is (hwf.linkIs l)
    exact onLink_refines l hwf hfault (by rw [linkTake, hpop]; rfl) hk

theorem chAvail_refines (l : Link) (d : Dir) : Refines (.chAvail l d) s := by
  obtain ⟨hr, ht, -, -⟩ := linkIs_iff.1 (hwf.linkIs l)
  have havail : (s.chan l d).avail =
      match d with | .rx => !(s.abs.link l).rx.isEmpty | .tx => !(s.abs.link l).tx.isEmpty := by
    cases d
    · exact hr.avail_eq
    · exact ht.avail_eq
  exact perform_refines hfault (congrArg (fun b => Except.ok (Completion.responds (respBool b) s)) havail) hwf rfl

theorem probe_refines (l : Link) (e : Text) : Refines (.probe l e) s := by
  obtain ⟨rx, hprobe, hk, -⟩ := probe_is e (hwf.linkIs l)
  exact onLink_refines l hwf hfault (by rw [hprobe]; rfl) hk

theorem extract_refines (l : Link) (cap : Byte) : Refines (.extract l cap) s := by
  obtain ⟨rx, hextract, hk, -⟩ := extract_is cap.toNat (hwf.linkIs l)
  exact onLink_refines l hwf hfault (by rw [hextract]; rfl) hk

theorem skip_refines (l : Link) : Refines (.skip l) s := by
  obtain ⟨rx, hskip, hk, -⟩ := skipLine_is (hwf.linkIs l)
  exact onLink_refines l hwf hfault (by rw [hskip]; rfl) hk

theorem sendRaw_refines (l : Link) (x : Text) : Refines (.sendRaw l x) s := by
  obtain ⟨tx, hpush, -, hk⟩ := txPushString_is x hwf.two_le_linkCap (hwf.linkIs l)
  exact onLink_refines l hwf hfault (by rw [hpush]; rfl) hk

/-- Without an endpoint the command only records its fault (R190, R211). -/
theorem sendUdp_refines (x : Text) : Refines (.sendUdp x) s := by
  unfold Refines QState.exec exec execSendUdp
  rw [show s.abs.ep = s.ep from rfl]
  cases s.ep.valid with
  | true =>
    obtain ⟨tx, hpush, -, hk⟩ := txPushString_is (outboundFrame s.cfg s.ep x) hwf.two_le_linkCap hwf.linkIs_m
    exact onLink_refines .m hwf hfault (by rw [hpush]; rfl) hk
  | false => exact ⟨_, perform_raises hfault, hwf, rfl⟩

theorem execute_refines (x : Text) : Refines (.execute x) s := by
  obtain ⟨tx, hpush, -, hkwf, hkabs⟩ := txPushString_is x hwf.two_le_linkCap hwf.linkIs_m
  have hwf₁ : ({ s with m := { s.m with tx := tx } } : State).wf := hwf.setLink .m hkwf
  have habs₁ : ({ s with m := { s.m with tx := tx } } : State).abs =
      { s.abs with m := { s.abs.m with tx := qAppend s.cfg s.abs.m.tx x } } :=
    congrArg (fun q : QLink => { s.abs with m := q }) hkabs
  obtain ⟨j, -, m, t, hpoll, hlinks, habs, -⟩ := pollLoop_is (n := s.cfg.waitBudget) (line := none) hwf₁.links
  rw [habs₁] at hpoll habs
  exact perform_refines hfault (by rw [hpush, except_bind_ok, hpoll]; rfl) (hwf.of_links hlinks rfl rfl rfl) habs

theorem tryRecv_refines : Refines .tryRecv s := by
  obtain ⟨k, hrecv, hkwf, hkabs⟩ := recv_is s.dec hwf.linkIs_m
  have hep := Endpoint.learn_wf hwf s.abs.m.rx
  obtain ⟨hcfg, -, ht, hdec, -⟩ := hwf
  refine perform_refines hfault (by rw [hrecv]; rfl) (s' := { s with
    m := k
    dec := (decodeList s.cfg s.dec s.abs.m.rx).2.1
    ep := s.ep.learn (decodeList s.cfg s.dec s.abs.m.rx).1 }) ⟨hcfg, hkwf, ht, decodeList_wf _ hdec, hep⟩ ?_
  simp only [State.abs, hkabs]
  rfl

theorem resetLink_refines (l : Link) : Refines (.resetLink l) s := by
  obtain ⟨hkwf, hkabs⟩ := LinkState.cleared_is (hwf.linkIs l)
  have hwf' := hwf.setLink l hkwf
  have habs' := (s.abs_setLink l _).trans (congrArg (s.abs.setLink l) hkabs)
  cases l with
  | m =>
    obtain ⟨hcfg, hm, ht, -, hep⟩ := hwf'
    exact perform_refines (s' := { s.setLink .m (s.link .m).cleared with dec := Decoder.reset }) hfault rfl
      ⟨hcfg, hm, ht, Decoder.reset_wf s.cfg, hep⟩
      (congrArg (fun q : QState => { q with dec := Decoder.reset }) habs')
  | t => exact perform_refines hfault rfl hwf' habs'

theorem service_refines : Refines .service s := by
  obtain ⟨m, t, hservice, hlinks, habs, -⟩ := serviceNext_is hwf.links
  exact perform_refines hfault (by rw [hservice]; rfl) (hwf.of_links hlinks rfl rfl rfl) habs

theorem exec_refines (i : Instr) : Refines i s := by
  cases i with
  | chPush l d b => exact chPush_refines hwf hfault l d b
  | chPop l d => exact chPop_refines hwf hfault l d
  | chAvail l d => exact chAvail_refines hwf hfault l d
  | probe l e => exact probe_refines hwf hfault l e
  | extract l cap => exact extract_refines hwf hfault l cap
  | skip l => exact skip_refines hwf hfault l
  | execute x => exact execute_refines hwf hfault x
  | sendRaw l x => exact sendRaw_refines hwf hfault l x
  | sendUdp x => exact sendUdp_refines hwf hfault x
  | tryRecv => exact tryRecv_refines hwf hfault
  | resetLink l => exact resetLink_refines hwf hfault l
  | service => exact service_refines hwf hfault

end OneCommand

/-- Settles O48, command by command. -/
theorem ringBuffersRefineQueues : Obligations.RingBuffersRefineQueues :=
  fun i _ hwf hfault => exec_refines hwf hfault i

/-! ### Every command and every step keeps the state well-formed -/

/-- A recorded fault stops every command (R212). -/
theorem exec_faulted {s : State} {r : FaultReason} (hfault : s.fault = some r) (i : Instr) :
    exec i s = .fault (.stuck r) := by
  cases i with
  | chAvail l d => exact perform_faulted hfault (.ok (.responds (respBool (s.chan l d).avail) s))
  | _ => exact perform_faulted hfault _

/-- A command with a next state ran with no fault recorded. -/
theorem exec_next_fault {i : Instr} {s t : State} (h : exec i s = .next t) : s.fault = none := by
  cases hfault : s.fault with
  | none => rfl
  | some r => cases (exec_faulted hfault i).symm.trans h

theorem exec_wf {i : Instr} {s t : State} (hwf : s.wf) (h : exec i s = .next t) : t.wf := by
  obtain ⟨t', hexec, hwf', -⟩ := exec_refines hwf (exec_next_fault h) i
  cases h.symm.trans hexec
  exact hwf'

/-- The three ways a step has a next state: it waits, executes the command taken, or records IllegalCommand. -/
theorem step_next_cases {s t : State} (h : step s = .next t) :
    t = s ∨ (∃ i rest, exec i { s with pending := rest } = .next t) ∨
      ∃ rest r, t = { s with pending := rest, fault := some r } := by
  rcases step_cases s with ⟨r, -, hstep⟩ | ⟨-, -, hstep⟩ | ⟨-, c, rest, -, ⟨i, -, hstep⟩ | ⟨w, -, hstep⟩⟩
  · cases hstep.symm.trans h
  · cases hstep.symm.trans h
    exact .inl rfl
  · exact .inr (.inl ⟨i, rest, hstep ▸ h⟩)
  · cases hstep.symm.trans h
    exact .inr (.inr ⟨rest, _, rfl⟩)

theorem step_wf {s t : State} (hwf : s.wf) (h : step s = .next t) : t.wf := by
  rcases step_next_cases h with rfl | ⟨i, rest, hexec⟩ | ⟨rest, r, rfl⟩
  · exact hwf
  · exact exec_wf (s := { s with pending := rest }) hwf hexec
  · exact hwf

theorem Reaches.wf {s t : State} (h : Reaches s t) (hwf : s.wf) : t.wf := by
  induction h with
  | refl => exact hwf
  | step _ hstep ih => exact step_wf ih hstep

/-- Settles O9: a command's next state is well-formed by its refinement, and the rest of a step writes no field that
well-formedness reads. -/
theorem stepsKeepTheStateWellFormed : Obligations.StepsKeepTheStateWellFormed := by
  rintro s t hwf (hstep | ⟨i, hexec⟩)
  · exact step_wf hwf hstep
  · exact exec_wf hwf hexec

/-- Each channel of a well-formed state holds its content. -/
theorem State.wf.holds {s : State} (h : s.wf) (l : Link) (d : Dir) : Holds s.cfg.linkCap (s.chan l d) (s.content l d) := by
  obtain ⟨hrx, htx⟩ := h.linkWf l
  cases d
  · exact Channel.wf_holds hrx
  · exact Channel.wf_holds htx

/-- Settles O10: reached states are well-formed, and a well-formed channel holds fewer than LINK_CAP bytes. -/
theorem reachableChannelsAreNeverFull : Obligations.ReachableChannelsAreNeverFull := by
  intro s t hwf hreach l d
  have hholds := (hreach.wf hwf).holds l d
  have hlt := hholds.length_lt
  exact ⟨by rw [hholds.count_eq]; omega, hholds.count_eq.symm, hholds.head_eq_tail_iff⟩

/-! ### A step of the queue machine (R9, R33) -/

/-- One step of the queue machine when no fault is recorded: wait, execute the next command, or record IllegalCommand. -/
def QState.step (q : QState) : QState :=
  match q.pending with
  | [] => q
  | c :: rest =>
    match decode q.cfg.maxOperand c.word c.operand with
    | .command i => QState.exec i { q with pending := rest }
    | .illegalCommand w => { q with pending := rest, fault := some (.illegalCommand w) }

theorem QState.step_of_decode {q : QState} {c : Issue} {rest : List Issue} {i : Instr} (hpending : q.pending = c :: rest)
    (hdecode : decode q.cfg.maxOperand c.word c.operand = .command i) :
    q.step = QState.exec i { q with pending := rest } := by simp only [QState.step, hpending, hdecode]

theorem QState.step_of_illegal {q : QState} {c : Issue} {rest : List Issue} {w : Word} (hpending : q.pending = c :: rest)
    (hdecode : decode q.cfg.maxOperand c.word c.operand = .illegalCommand w) :
    q.step = { q with pending := rest, fault := some (.illegalCommand w) } := by
  simp only [QState.step, hpending, hdecode]

/-- What a step answers from a well-formed state is a function of what the state holds. -/
theorem step_refines {s : State} (hwf : s.wf) :
    (∃ r, s.abs.fault = some r ∧ step s = .fault (.stuck r)) ∨
      (s.abs.fault = none ∧ ∃ t, step s = .next t ∧ t.abs = s.abs.step) := by
  rcases step_cases s with ⟨r, hfault, hstep⟩ | ⟨hfault, hnil, hstep⟩ |
    ⟨hfault, c, rest, hcons, ⟨i, hdecode, hstep⟩ | ⟨w, hdecode, hstep⟩⟩
  · exact .inl ⟨r, hfault, hstep⟩
  · have hwait : s.abs.step = s.abs := by simp only [QState.step, show s.abs.pending = [] from hnil]
    exact .inr ⟨hfault, s, hstep, hwait.symm⟩
  · obtain ⟨t, hexec, -, habs⟩ := exec_refines (s := { s with pending := rest }) hwf hfault i
    exact .inr ⟨hfault, t, hstep.trans hexec, habs.trans (QState.step_of_decode (q := s.abs) hcons hdecode).symm⟩
  · exact .inr ⟨hfault, _, hstep, (QState.step_of_illegal (q := s.abs) hcons hdecode).symm⟩

/-- Settles O49: both states answer what the queue machine answers from the bytes they hold. -/
theorem storageOutsideContentIsNotObservable : Obligations.StorageOutsideContentIsNotObservable := by
  intro s s' hwf hwf' habs
  rcases step_refines hwf with ⟨r, hfault, hstep⟩ | ⟨hfault, t, hstep, ht⟩
  · rcases step_refines hwf' with ⟨r', hfault', hstep'⟩ | ⟨hfault', -⟩
    · rw [← habs, hfault] at hfault'
      cases hfault'
      exact .inl ⟨_, hstep, hstep'⟩
    · cases hfault.symm.trans (habs ▸ hfault')
  · rcases step_refines hwf' with ⟨r', hfault', -⟩ | ⟨-, t', hstep', ht'⟩
    · cases hfault.symm.trans (habs ▸ hfault')
    · exact .inr ⟨t, t', hstep, hstep', by rw [ht, ht', habs]⟩

end Sys2Proof.Machine
end

section
/-! PROOFS. What every command leaves as it was, in every state, well-formed or not: the parts R49 gives it no `w` for,
the other link (R32), the parameters (R46) and the wire traces, which only grow (R44); and the codes of R38 and R41. -/

namespace Sys2Proof.Machine

/-! ### Operations that move one side of a link -/

/-- Only the RX channel and the counter of a link moved. -/
structure RxOnly (k k' : LinkState) : Prop where
  tx : k'.tx = k.tx
  wire : k'.wire = k.wire

/-- Only the TX channel of a link moved. -/
structure TxOnly (k k' : LinkState) : Prop where
  rx : k'.rx = k.rx
  pcr : k'.pcr = k.pcr
  wire : k'.wire = k.wire

theorem RxOnly.refl (k : LinkState) : RxOnly k k := ⟨rfl, rfl⟩

theorem RxOnly.trans {k₁ k₂ k₃ : LinkState} (h : RxOnly k₁ k₂) (h' : RxOnly k₂ k₃) : RxOnly k₁ k₃ :=
  ⟨h'.tx.trans h.tx, h'.wire.trans h.wire⟩

theorem RxOnly.of_rx {k k' : LinkState} {rx : Channel} (h : RxOnly { k with rx := rx } k') : RxOnly k k' :=
  ⟨h.tx, h.wire⟩

theorem rxPush_eq_ok {cfg : Config} {k k' : LinkState} {b : Byte} (h : rxPush cfg k b = .ok k') :
    RxOnly k k' ∧ (b ≠ byteCR → k'.pcr = k.pcr) := by
  obtain ⟨rx, -, h⟩ := except_bind_eq_ok h
  cases h
  exact ⟨⟨rfl, rfl⟩, fun hb => if_neg hb⟩

theorem everyCrDec_explicit (b : Byte) (c : BitVec 16) : everyCrDec .explicit b c = c := by simp [everyCrDec]

/-- Under EXPLICIT accounting a take leaves the counter alone (R7, R102). -/
theorem rxTake_eq_ok {cfg : Config} {k k' : LinkState} {r : Option Byte} (h : rxTake cfg k = .ok (r, k')) :
    RxOnly k k' ∧ (cfg.crAccounting = .explicit → k'.pcr = k.pcr) := by
  obtain ⟨⟨r, rx⟩, -, h⟩ := except_bind_eq_ok h
  cases r with
  | none => cases h; exact ⟨⟨rfl, rfl⟩, fun _ => rfl⟩
  | some b => cases h; exact ⟨⟨rfl, rfl⟩, fun hacc => by simp only [hacc, everyCrDec_explicit]⟩

theorem txPush_eq_ok {cfg : Config} {k k' : LinkState} {b : Byte} (h : txPush cfg k b = .ok k') : TxOnly k k' := by
  obtain ⟨tx, -, h⟩ := except_bind_eq_ok h
  cases h
  exact ⟨rfl, rfl, rfl⟩

theorem txPop_eq_ok {cfg : Config} {k k' : LinkState} {r : Option Byte} (h : txPop cfg k = .ok (r, k')) :
    TxOnly k k' := by
  obtain ⟨⟨r, tx⟩, -, h⟩ := except_bind_eq_ok h
  cases h
  exact ⟨rfl, rfl, rfl⟩

theorem txPushString_eq_ok {cfg : Config} {k k' : LinkState} {x : Text} (h : txPushString cfg k x = .ok k') :
    TxOnly k k' := by
  obtain ⟨tx, -, h⟩ := except_bind_eq_ok h
  cases h
  exact ⟨rfl, rfl, rfl⟩

/-! ### The matcher -/

theorem commit_eq_ok {cfg : Config} {k k' : LinkState} {w : Nat} {cr : Bool} (h : commit cfg k w cr = .ok k') :
    RxOnly k k' := by
  obtain ⟨span, -, h⟩ := except_bind_eq_ok h
  cases h
  exact ⟨rfl, rfl⟩

theorem probe_eq_ok {cfg : Config} {k k' : LinkState} {e : Text} {r : Bool} (h : probe cfg k e = .ok (r, k')) :
    RxOnly k k' := by
  obtain ⟨w, -, h⟩ := except_bind_eq_ok h
  cases w with
  | none => cases h; exact .refl k
  | some w =>
    obtain ⟨n, -, h⟩ := except_bind_eq_ok h
    have hcommit : ∃ w' cr, commit cfg k w' cr = .ok k' := by
      cases n with
      | none =>
        obtain ⟨k₁, hk, h⟩ := except_bind_eq_ok h
        cases h; exact ⟨_, _, hk⟩
      | some p =>
        simp only [] at h
        split at h
        · obtain ⟨k₁, hk, h⟩ := except_bind_eq_ok h
          cases h; exact ⟨_, _, hk⟩
        · obtain ⟨k₁, hk, h⟩ := except_bind_eq_ok h
          cases h; exact ⟨_, _, hk⟩
    obtain ⟨w', cr, hcommit⟩ := hcommit
    exact commit_eq_ok hcommit

theorem extractLoop_eq_ok {cfg : Config} {cap fuel : Nat} {k k' : LinkState} {x y : Text}
    (h : extractLoop cfg cap fuel k x = .ok (y, k')) : RxOnly k k' := by
  induction fuel generalizing k x with
  | zero => cases h; exact .refl _
  | succ fuel ih =>
    obtain ⟨⟨r, rx⟩, -, h⟩ := except_bind_eq_ok h
    cases r with
    | none => cases h; exact ⟨rfl, rfl⟩
    | some b =>
      simp only [] at h
      split_ifs at h
      · cases h; exact ⟨rfl, rfl⟩
      · cases h; exact ⟨rfl, rfl⟩
      · exact .of_rx (ih h)
      · exact .of_rx (ih h)

theorem skipLoop_eq_ok {cfg : Config} {fuel : Nat} {k k' : LinkState} (h : skipLoop cfg fuel k = .ok k') :
    RxOnly k k' := by
  induction fuel generalizing k with
  | zero => cases h; exact ⟨rfl, rfl⟩
  | succ fuel ih =>
    obtain ⟨⟨r, rx⟩, -, h⟩ := except_bind_eq_ok h
    cases r with
    | none => cases h; exact ⟨rfl, rfl⟩
    | some b =>
      simp only [] at h
      split_ifs at h
      · cases h; exact ⟨rfl, rfl⟩
      · exact .of_rx (ih h)

theorem classify_eq_ok {cfg : Config} {k k' : LinkState} {c : Classified} (h : classify cfg k = .ok (c, k')) :
    RxOnly k k' := by
  obtain ⟨⟨isOk, k₁⟩, hok, h⟩ := except_bind_eq_ok h
  have hk₁ := probe_eq_ok hok
  cases isOk with
  | true => cases h; exact hk₁
  | false =>
    obtain ⟨⟨isError, k₂⟩, herror, h⟩ := except_bind_eq_ok h
    have hk₂ := hk₁.trans (probe_eq_ok herror)
    cases isError with
    | true => cases h; exact hk₂
    | false =>
      obtain ⟨⟨x, k₃⟩, hextract, h⟩ := except_bind_eq_ok h
      cases h
      exact hk₂.trans (extractLoop_eq_ok hextract)

/-! ### The frame decoder's loop -/

theorem recvLoop_eq_ok {cfg : Config} {fuel : Nat} {k k' : LinkState} {d d' : Decoder} {f : Option Frame}
    (h : recvLoop cfg fuel k d = .ok (f, k', d')) :
    RxOnly k k' ∧ (cfg.crAccounting = .explicit → k'.pcr = k.pcr) := by
  induction fuel generalizing k d with
  | zero => cases h; exact ⟨.refl _, fun _ => rfl⟩
  | succ fuel ih =>
    obtain ⟨⟨r, k₁⟩, htake, h⟩ := except_bind_eq_ok h
    obtain ⟨hk₁, hpcr₁⟩ := rxTake_eq_ok htake
    cases r with
    | none => cases h; exact ⟨hk₁, hpcr₁⟩
    | some b =>
      simp only [] at h
      split at h
      · obtain ⟨hk', hpcr'⟩ := ih h
        exact ⟨hk₁.trans hk', fun hacc => (hpcr' hacc).trans (hpcr₁ hacc)⟩
      · cases h; exact ⟨hk₁, hpcr₁⟩

/-! ### Services and the poll -/

theorem receive_eq_ok {cfg : Config} {k k' : LinkState} {x : Text} (h : receive cfg k x = .ok k') : RxOnly k k' := by
  induction x generalizing k with
  | nil => cases h; exact .refl _
  | cons b x ih =>
    obtain ⟨k₁, hpush, h⟩ := except_bind_eq_ok h
    exact (rxPush_eq_ok hpush).1.trans (ih h)

theorem transmit_wire {cfg : Config} {k k' : LinkState} {n : Nat} (h : transmit cfg k n = .ok k') :
    k.wire <+: k'.wire := by
  induction n generalizing k with
  | zero => cases h; exact List.prefix_rfl
  | succ n ih =>
    obtain ⟨⟨r, k₁⟩, hpop, h⟩ := except_bind_eq_ok h
    rw [← (txPop_eq_ok hpop).wire]
    cases r with
    | none => cases h; exact List.prefix_rfl
    | some b => exact (List.prefix_append _ _).trans (ih h)

theorem serviceLink_wire {cfg : Config} {k k' : LinkState} {x : Text} {n : Nat} (h : serviceLink cfg k x n = .ok k') :
    k.wire <+: k'.wire := by
  obtain ⟨k₁, hreceive, h⟩ := except_bind_eq_ok h
  rw [← (receive_eq_ok hreceive).wire]
  exact transmit_wire h

/-- The links moved under services, their wire traces only growing; every other part of R30 and the responses stay. -/
structure LinksMoved (s s' : State) : Prop where
  cfg : s'.cfg = s.cfg
  dec : s'.dec = s.dec
  ep : s'.ep = s.ep
  fault : s'.fault = s.fault
  responses : s'.responses = s.responses
  wire : ∀ l, (s.link l).wire <+: (s'.link l).wire

theorem LinksMoved.refl (s : State) : LinksMoved s s := ⟨rfl, rfl, rfl, rfl, rfl, fun _ => List.prefix_rfl⟩

theorem LinksMoved.trans {s₁ s₂ s₃ : State} (h : LinksMoved s₁ s₂) (h' : LinksMoved s₂ s₃) : LinksMoved s₁ s₃ :=
  ⟨h'.cfg.trans h.cfg, h'.dec.trans h.dec, h'.ep.trans h.ep, h'.fault.trans h.fault, h'.responses.trans h.responses,
    fun l => (h.wire l).trans (h'.wire l)⟩

/-- The module link replaced by one with the same wire trace. -/
theorem LinksMoved.of_wire_eq {s : State} {m : LinkState} (h : m.wire = s.m.wire) : LinksMoved s { s with m := m } := by
  refine ⟨rfl, rfl, rfl, rfl, rfl, fun l => ?_⟩
  cases l
  · exact h ▸ List.prefix_rfl
  · exact List.prefix_rfl

/-- A service is one service of each link under the next draw, and nothing else but the draw used up (R108). -/
theorem serviceNext_eq_ok {s s' : State} (h : serviceNext s = .ok s') :
    ∃ m t, s' = { s.drawTaken with m := m, t := t } ∧
      serviceLink s.cfg s.m s.nextDraw.rxM s.nextDraw.txM = .ok m ∧
      serviceLink s.cfg s.t s.nextDraw.rxT s.nextDraw.txT = .ok t := by
  obtain ⟨m, hm, h⟩ := except_bind_eq_ok h
  obtain ⟨t, ht, h⟩ := except_bind_eq_ok h
  cases h
  exact ⟨m, t, rfl, hm, ht⟩

theorem serviceNext_moves {s s' : State} (h : serviceNext s = .ok s') : LinksMoved s s' := by
  obtain ⟨m, t, rfl, hm, ht⟩ := serviceNext_eq_ok h
  refine ⟨rfl, rfl, rfl, rfl, rfl, fun l => ?_⟩
  cases l
  · exact serviceLink_wire hm
  · exact serviceLink_wire ht

theorem pollLoop_moves {n : Nat} {line line' : Option Text} {s s' : State} {r : CommandResult}
    (h : pollLoop n line s = .ok (r, line', s')) : LinksMoved s s' := by
  induction n generalizing line s with
  | zero => cases h; exact .refl _
  | succ n ih =>
    obtain ⟨s₁, hservice, h⟩ := except_bind_eq_ok h
    have hs₁ := serviceNext_moves hservice
    simp only [] at h
    split at h
    · exact hs₁.trans (ih h)
    · obtain ⟨⟨c, m⟩, hclassify, h⟩ := except_bind_eq_ok h
      have hs₂ := hs₁.trans (.of_wire_eq (classify_eq_ok hclassify).wire)
      cases c with
      | ok => cases h; exact hs₂
      | error => cases h; exact hs₂
      | line x => exact hs₂.trans (ih h)

/-! ### What a command leaves as it was (R49) -/

/-- Of the link it acts on, a command leaves the wire trace and every part it may not write as it was. -/
structure LinkFrame (acc : CrAccounting) (i : Instr) (l : Link) (k k' : LinkState) : Prop where
  rx : mayWrite acc i (.rx l) = false → k'.rx = k.rx
  tx : mayWrite acc i (.tx l) = false → k'.tx = k.tx
  pcr : mayWrite acc i (.pcr l) = false → k'.pcr = k.pcr
  wire : k'.wire = k.wire

theorem LinkFrame.refl (acc : CrAccounting) (i : Instr) (l : Link) (k : LinkState) : LinkFrame acc i l k k :=
  ⟨fun _ => rfl, fun _ => rfl, fun _ => rfl, rfl⟩

theorem RxOnly.linkFrame {acc : CrAccounting} {i : Instr} {l : Link} {k k' : LinkState} (h : RxOnly k k')
    (hrx : mayWrite acc i (.rx l) = true) (hpcr : mayWrite acc i (.pcr l) = false → k'.pcr = k.pcr) :
    LinkFrame acc i l k k' :=
  ⟨fun hno => absurd (hrx.symm.trans hno) (by decide), fun _ => h.tx, hpcr, h.wire⟩

/-- A command that may write the counter of its link, whatever it does to it. -/
theorem RxOnly.linkFrame_of_pcr {acc : CrAccounting} {i : Instr} {l : Link} {k k' : LinkState} (h : RxOnly k k')
    (hrx : mayWrite acc i (.rx l) = true) (hpcr : mayWrite acc i (.pcr l) = true) : LinkFrame acc i l k k' :=
  h.linkFrame hrx fun hno => absurd (hpcr.symm.trans hno) (by decide)

theorem TxOnly.linkFrame {acc : CrAccounting} {i : Instr} {l : Link} {k k' : LinkState} (h : TxOnly k k')
    (htx : mayWrite acc i (.tx l) = true) : LinkFrame acc i l k k' :=
  ⟨fun _ => h.rx, fun hno => absurd (htx.symm.trans hno) (by decide), fun _ => h.pcr, h.wire⟩

/-- What a command that answers a next state does to a state, well-formed or not: it changes its one link, the decoder and
the endpoint where R49 lets it; or it moves both links under services; or it records a fault. -/
inductive Effect (s : State) (i : Instr) : State → Prop where
  | oneLink (l : Link) (k : LinkState) (d : Decoder) (e : Endpoint) (r : Response) (hlink : Instr.oneLink i = some l)
      (hframe : LinkFrame s.cfg.crAccounting i l (s.link l) k)
      (hdec : mayWrite s.cfg.crAccounting i .dec = false → d = s.dec)
      (hep : mayWrite s.cfg.crAccounting i .ep = false → e = s.ep) (hvalid : s.ep.valid = true → e.valid = true) :
      Effect s i (State.respond { s.setLink l k with dec := d, ep := e } r)
  | bothLinks (s' : State) (r : Response) (hlink : Instr.oneLink i = none) (hmoved : LinksMoved s s') :
      Effect s i (s'.respond r)
  | raises (r : FaultReason) (hwrite : mayWrite s.cfg.crAccounting i .fault = true) :
      Effect s i { s with fault := some r }

/-- A body that changes one link and returns a response. -/
theorem onLink_effect {i : Instr} {l : Link} {s t : State} {body : Except Fault (Response × LinkState)}
    (hlink : Instr.oneLink i = some l) (h : perform s (onLink s l body) = .next t)
    (hframe : ∀ r k, body = .ok (r, k) → LinkFrame s.cfg.crAccounting i l (s.link l) k) : Effect s i t := by
  obtain ⟨-, ⟨r, s', hbody, rfl⟩ | ⟨r, hbody, -⟩⟩ := perform_next h
  · obtain ⟨r', k, hk, hs'⟩ := onLink_eq_ok hbody
    cases hs'
    have heffect := Effect.oneLink (s := s) l k s.dec s.ep r hlink (hframe _ _ hk) (fun _ => rfl) (fun _ => rfl) id
    cases l
    · exact heffect
    · exact heffect
  · obtain ⟨r', k, -, hs'⟩ := onLink_eq_ok hbody
    cases hs'

section OneCommand

variable {s t : State}

theorem chPush_effect {l : Link} {d : Dir} {b : Byte} (h : exec (.chPush l d b) s = .next t) :
    Effect s (.chPush l d b) t := by
  refine onLink_effect rfl h fun r k hbody => ?_
  obtain ⟨k', hpush, hk⟩ := except_bind_eq_ok hbody
  cases hk
  cases d with
  | rx =>
    obtain ⟨hk, hpcr⟩ := rxPush_eq_ok hpush
    exact hk.linkFrame (by simp [mayWrite]) fun hno => hpcr (by simpa [mayWrite] using hno)
  | tx => exact (txPush_eq_ok hpush).linkFrame (by simp [mayWrite])

theorem crAccounting_explicit_of {acc : CrAccounting} (h : (acc == .everyCr) = false) : acc = .explicit := by
  cases acc with
  | explicit => rfl
  | everyCr => cases h

theorem chPop_effect {l : Link} {d : Dir} (h : exec (.chPop l d) s = .next t) : Effect s (.chPop l d) t := by
  refine onLink_effect rfl h fun r k hbody => ?_
  obtain ⟨⟨b, k'⟩, htake, hk⟩ := except_bind_eq_ok hbody
  cases hk
  cases d with
  | rx =>
    obtain ⟨hk, hpcr⟩ := rxTake_eq_ok htake
    exact hk.linkFrame (by simp [mayWrite]) fun hno => hpcr (crAccounting_explicit_of (by simpa [mayWrite] using hno))
  | tx => exact (txPop_eq_ok htake).linkFrame (by simp [mayWrite])

theorem chAvail_effect {l : Link} {d : Dir} (h : exec (.chAvail l d) s = .next t) : Effect s (.chAvail l d) t := by
  refine onLink_effect (body := .ok (respBool (s.chan l d).avail, s.link l)) rfl ?_ fun r k hbody => ?_
  · rw [onLink_ok, State.setLink_self]; exact h
  · cases hbody; exact .refl _ _ _ _

theorem probe_effect {l : Link} {e : Text} (h : exec (.probe l e) s = .next t) : Effect s (.probe l e) t := by
  refine onLink_effect rfl h fun r k hbody => ?_
  obtain ⟨⟨b, k'⟩, hprobe, hk⟩ := except_bind_eq_ok hbody
  cases hk
  exact (probe_eq_ok hprobe).linkFrame_of_pcr (by simp [mayWrite]) (by simp [mayWrite])

theorem extract_effect {l : Link} {cap : Byte} (h : exec (.extract l cap) s = .next t) :
    Effect s (.extract l cap) t := by
  refine onLink_effect rfl h fun r k hbody => ?_
  obtain ⟨⟨x, k'⟩, hextract, hk⟩ := except_bind_eq_ok hbody
  cases hk
  exact (extractLoop_eq_ok hextract).linkFrame_of_pcr (by simp [mayWrite]) (by simp [mayWrite])

theorem skip_effect {l : Link} (h : exec (.skip l) s = .next t) : Effect s (.skip l) t := by
  refine onLink_effect rfl h fun r k hbody => ?_
  obtain ⟨k', hskip, hk⟩ := except_bind_eq_ok hbody
  cases hk
  exact (skipLoop_eq_ok hskip).linkFrame_of_pcr (by simp [mayWrite]) (by simp [mayWrite])

theorem sendRaw_effect {l : Link} {x : Text} (h : exec (.sendRaw l x) s = .next t) : Effect s (.sendRaw l x) t := by
  refine onLink_effect rfl h fun r k hbody => ?_
  obtain ⟨k', hpush, hk⟩ := except_bind_eq_ok hbody
  cases hk
  exact (txPushString_eq_ok hpush).linkFrame (by simp [mayWrite])

theorem sendUdp_effect {x : Text} (h : exec (.sendUdp x) s = .next t) : Effect s (.sendUdp x) t := by
  simp only [exec, execSendUdp] at h
  split at h
  · refine onLink_effect rfl h fun r k hbody => ?_
    obtain ⟨k', hpush, hk⟩ := except_bind_eq_ok hbody
    cases hk
    exact (txPushString_eq_ok hpush).linkFrame rfl
  · obtain ⟨hfault, -⟩ := perform_next h
    cases (perform_raises hfault).symm.trans h
    exact .raises _ rfl

/-- A learned endpoint stays learned, whether a frame is delivered or not (R40). -/
theorem Endpoint.learn_valid {e : Endpoint} (h : e.valid = true) (f : Option Frame) : (e.learn f).valid = true := by
  cases f with
  | none => exact h
  | some f => rfl

theorem tryRecv_effect (h : exec .tryRecv s = .next t) : Effect s .tryRecv t := by
  obtain ⟨-, ⟨r, s', hbody, rfl⟩ | ⟨r, hbody, -⟩⟩ := perform_next h
  · obtain ⟨⟨f, m, d⟩, hrecv, hs'⟩ := except_bind_eq_ok hbody
    cases hs'
    obtain ⟨hk, hpcr⟩ := recvLoop_eq_ok hrecv
    exact .oneLink .m m d (s.ep.learn f) _ rfl
      (hk.linkFrame rfl fun hno => hpcr (crAccounting_explicit_of (by simpa [mayWrite] using hno)))
      (by simp [mayWrite]) (by simp [mayWrite]) fun hvalid => Endpoint.learn_valid hvalid f
  · obtain ⟨⟨f, m, d⟩, -, hs'⟩ := except_bind_eq_ok hbody
    cases hs'

theorem LinkState.cleared_frame (acc : CrAccounting) (l : Link) (k : LinkState) :
    LinkFrame acc (.resetLink l) l k k.cleared :=
  ⟨by simp [mayWrite], by simp [mayWrite], by simp [mayWrite], rfl⟩

theorem resetLink_effect {l : Link} (h : exec (.resetLink l) s = .next t) : Effect s (.resetLink l) t := by
  obtain ⟨hfault, -⟩ := perform_next h
  cases l with
  | m =>
    cases (perform_responds hfault).symm.trans h
    exact .oneLink .m s.m.cleared Decoder.reset s.ep respNone rfl (LinkState.cleared_frame _ _ _) (by simp [mayWrite])
      (fun _ => rfl) id
  | t =>
    cases (perform_responds hfault).symm.trans h
    exact .oneLink .t s.t.cleared s.dec s.ep respNone rfl (LinkState.cleared_frame _ _ _) (fun _ => rfl) (fun _ => rfl) id

theorem execute_effect {x : Text} (h : exec (.execute x) s = .next t) : Effect s (.execute x) t := by
  obtain ⟨-, ⟨r, s', hbody, rfl⟩ | ⟨r, hbody, -⟩⟩ := perform_next h
  all_goals
    obtain ⟨m, hpush, hbody⟩ := except_bind_eq_ok hbody
    obtain ⟨⟨c, line, s₁⟩, hpoll, hs'⟩ := except_bind_eq_ok hbody
    cases hs'
  exact .bothLinks s' _ rfl ((LinksMoved.of_wire_eq (txPushString_eq_ok hpush).wire).trans (pollLoop_moves hpoll))

theorem service_effect (h : exec .service s = .next t) : Effect s .service t := by
  obtain ⟨-, ⟨r, s', hbody, rfl⟩ | ⟨r, hbody, -⟩⟩ := perform_next h
  all_goals
    obtain ⟨s₁, hservice, hs'⟩ := except_bind_eq_ok hbody
    cases hs'
  exact .bothLinks s' _ rfl (serviceNext_moves hservice)

theorem exec_effect {i : Instr} (h : exec i s = .next t) : Effect s i t := by
  cases i with
  | chPush l d b => exact chPush_effect h
  | chPop l d => exact chPop_effect h
  | chAvail l d => exact chAvail_effect h
  | probe l e => exact probe_effect h
  | extract l cap => exact extract_effect h
  | skip l => exact skip_effect h
  | execute x => exact execute_effect h
  | sendRaw l x => exact sendRaw_effect h
  | sendUdp x => exact sendUdp_effect h
  | tryRecv => exact tryRecv_effect h
  | resetLink l => exact resetLink_effect h
  | service => exact service_effect h

end OneCommand

/-! ### The parts of a state after a command -/

/-- A part of a link reads as before when the command acts on another link, or leaves that part of its own link. -/
theorem oneLink_part {α : Type} (part : LinkState → α) {s : State} {l l' : Link} {k : LinkState} {d : Decoder}
    {e : Endpoint} {r : Response} (h : l' = l → part k = part (s.link l)) :
    part ((State.respond { s.setLink l k with dec := d, ep := e } r).link l') = part (s.link l') := by
  cases l with
  | m =>
    cases l' with
    | m => exact h rfl
    | t => rfl
  | t =>
    cases l' with
    | m => rfl
    | t => exact h rfl

@[simp] theorem State.respond_link (s : State) (r : Response) (l : Link) : (s.respond r).link l = s.link l := by
  cases l <;> rfl

/-- EXECUTE and SERVICE may write every part of the links; the decoder, the endpoint and the fault they may not. -/
theorem mayWrite_bothLinks {acc : CrAccounting} {i : Instr} {p : Part} (hlink : Instr.oneLink i = none)
    (hno : mayWrite acc i p = false) : p = .dec ∨ p = .ep ∨ p = .fault := by
  cases i <;> cases hlink <;> cases p <;> simp [mayWrite] at hno ⊢

namespace Effect

variable {i : Instr} {s t : State}

theorem samePart (h : Effect s i t) {p : Part} (hno : mayWrite s.cfg.crAccounting i p = false) :
    Machine.samePart s t p := by
  cases h with
  | oneLink l k d e r hlink hframe hdec hep hvalid =>
    cases p with
    | rx l' => exact oneLink_part LinkState.rx fun heq => hframe.rx (heq ▸ hno)
    | tx l' => exact oneLink_part LinkState.tx fun heq => hframe.tx (heq ▸ hno)
    | pcr l' => exact oneLink_part LinkState.pcr fun heq => hframe.pcr (heq ▸ hno)
    | wire l' => exact oneLink_part LinkState.wire fun _ => hframe.wire
    | dec => exact hdec hno
    | ep => exact hep hno
    | fault => exact State.setLink_fault s l k
  | bothLinks s' r hlink hmoved =>
    rcases mayWrite_bothLinks hlink hno with rfl | rfl | rfl
    · exact hmoved.dec
    · exact hmoved.ep
    · exact hmoved.fault
  | raises r hwrite =>
    cases p with
    | fault => exact absurd (hwrite.symm.trans hno) (by decide)
    | rx l | tx l | pcr l | wire l => cases l <;> rfl
    | dec | ep => rfl

theorem otherLink (h : Effect s i t) {l l' : Link} (hlink : Instr.oneLink i = some l) (hne : l' ≠ l) :
    t.link l' = s.link l' := by
  cases h with
  | oneLink l₁ k d e r hlink₁ =>
    cases hlink₁.symm.trans hlink
    exact oneLink_part id fun heq => absurd heq hne
  | bothLinks s' r hnone => cases hnone.symm.trans hlink
  | raises r => cases l' <;> rfl

theorem cfg (h : Effect s i t) : t.cfg = s.cfg := by
  cases h with
  | oneLink l k => exact State.setLink_cfg s l k
  | bothLinks s' r hlink hmoved => exact hmoved.cfg
  | raises r => rfl

theorem wire (h : Effect s i t) (l : Link) : (s.link l).wire <+: (t.link l).wire := by
  cases h with
  | oneLink l₁ k d e r hlink hframe =>
    have hwire : (State.link _ l).wire = (s.link l).wire :=
      oneLink_part (k := k) (d := d) (e := e) (r := r) LinkState.wire fun _ => hframe.wire
    exact hwire ▸ List.prefix_rfl
  | bothLinks s' r hlink hmoved => exact (State.respond_link s' r l).symm ▸ hmoved.wire l
  | raises r => cases l <;> exact List.prefix_rfl

theorem responses (h : Effect s i t) : ∃ rs, t.responses = s.responses ++ rs ∧ rs.length ≤ 1 := by
  cases h with
  | oneLink l k d e r => exact ⟨[r], congrArg (· ++ [r]) (State.setLink_responses s l k), le_rfl⟩
  | bothLinks s' r hlink hmoved => exact ⟨[r], congrArg (· ++ [r]) hmoved.responses, le_rfl⟩
  | raises r => exact ⟨[], (List.append_nil _).symm, Nat.zero_le 1⟩

theorem valid (h : Effect s i t) (hlearned : s.ep.valid = true) : t.ep.valid = true := by
  cases h with
  | oneLink l k d e r hlink hframe hdec hep hvalid => exact hvalid hlearned
  | bothLinks s' r hlink hmoved => exact (congrArg Endpoint.valid hmoved.ep).trans hlearned
  | raises r => exact hlearned

end Effect

/-- What SERVICE leaves of each link is that link's own service under the next draw (R108). -/
theorem service_links {s t : State} (h : exec .service s = .next t) :
    serviceLink s.cfg s.m s.nextDraw.rxM s.nextDraw.txM = .ok t.m ∧
      serviceLink s.cfg s.t s.nextDraw.rxT s.nextDraw.txT = .ok t.t := by
  obtain ⟨-, ⟨r, s', hbody, rfl⟩ | ⟨r, hbody, -⟩⟩ := perform_next h
  all_goals
    obtain ⟨s₁, hservice, hs'⟩ := except_bind_eq_ok hbody
    cases hs'
  obtain ⟨m, t, rfl, hm, ht⟩ := serviceNext_eq_ok hservice
  exact ⟨hm, ht⟩

/-! ### The statements -/

/-- Settles O12: a step waits, records a fault, or has the effect of one command. -/
theorem tracesAreNeverShortened : Obligations.TracesAreNeverShortened := by
  intro s t hstep
  rcases step_next_cases hstep with rfl | ⟨i, rest, hexec⟩ | ⟨rest, r, rfl⟩
  · exact ⟨rfl, fun _ => ⟨[], (List.append_nil _).symm⟩, [], (List.append_nil _).symm, Nat.zero_le 1⟩
  · have heffect := exec_effect hexec
    refine ⟨heffect.cfg, fun l => ?_, heffect.responses⟩
    obtain ⟨x, hx⟩ := heffect.wire l
    exact ⟨x, by rw [← hx]; cases l <;> rfl⟩
  · exact ⟨rfl, fun l => ⟨[], by cases l <;> exact (List.append_nil _).symm⟩, [], (List.append_nil _).symm,
      Nat.zero_le 1⟩

/-- Settles O13: the only writer of the endpoint is a delivered frame, which learns one. -/
theorem aLearnedEndpointStaysLearned : Obligations.ALearnedEndpointStaysLearned := by
  intro s t hstep hlearned
  rcases step_next_cases hstep with rfl | ⟨i, rest, hexec⟩ | ⟨rest, r, rfl⟩
  · exact hlearned
  · exact (exec_effect hexec).valid hlearned
  · exact hlearned

/-- Settles O46, from the effect of each command. -/
theorem commandsWriteOnlyTheirParts : Obligations.CommandsWriteOnlyTheirParts :=
  fun _ _ _ hexec _ hno => (exec_effect hexec).samePart hno

/-- Settles O47: the frame of a one-link command, and each link's service being a function of that link. -/
theorem linksShareNoState : Obligations.LinksShareNoState := by
  refine ⟨fun _ _ _ _ _ hlink hne hexec => (exec_effect hexec).otherLink hlink hne, ?_⟩
  intro s s' t t' l hcfg hdraws hserviced hlink hexec hexec'
  obtain ⟨hm, ht⟩ := service_links hexec
  obtain ⟨hm', ht'⟩ := service_links hexec'
  have hdraw : s.nextDraw = s'.nextDraw := by simp only [State.nextDraw, hdraws, hserviced]
  cases l with
  | m =>
    rw [hcfg, hdraw, show s.m = s'.m from hlink] at hm
    exact Except.ok.inj (hm.symm.trans hm')
  | t =>
    rw [hcfg, hdraw, show s.t = s'.t from hlink] at ht
    exact Except.ok.inj (ht.symm.trans ht')

/-- Each decoder state's code is below 7 (R38). -/
theorem FrameState.code_ne_seven (st : FrameState) : st.code ≠ 7 := by cases st <;> decide

/-- Settles O21: the codes are those R38 and R41 list. -/
theorem stateAndResultCodes : Obligations.StateAndResultCodes :=
  ⟨rfl, FrameState.code_ne_seven, rfl⟩

end Sys2Proof.Machine
end

section
/-! PROOFS. Completion: from a well-formed state with no fault recorded, every command and every step has a next state
(20_memory.md R62, 60_exceptions.md R226, 70_reset_and_hazards.md R256). -/

namespace Sys2Proof.Machine

/-- A well-formed channel has every held byte written, so each command completes as its queue command does (R62). -/
theorem exec_completes {s : State} (hwf : s.wf) (hfault : s.fault = none) (i : Instr) : ∃ t, exec i s = .next t := by
  obtain ⟨t, hexec, -, -⟩ := exec_refines hwf hfault i
  exact ⟨t, hexec⟩

/-- A step waits, runs a decoded command, or records IllegalCommand; taking the command writes no field that
well-formedness reads. -/
theorem step_completes {s : State} (hwf : s.wf) (hfault : s.fault = none) : ∃ t, step s = .next t := by
  rcases step_cases s with ⟨r, hfaulted, -⟩ | ⟨-, -, hwait⟩ | ⟨-, c, rest, -, ⟨i, -, hrun⟩ | ⟨w, -, hillegal⟩⟩
  · cases hfault.symm.trans hfaulted
  · exact ⟨s, hwait⟩
  · obtain ⟨t, hexec⟩ := exec_completes (s := { s with pending := rest }) hwf hfault i
    exact ⟨t, hrun.trans hexec⟩
  · exact ⟨_, hillegal⟩

/-- Settles O11, the step and the commands each from their completion. -/
theorem noCommandStopsWithoutAFault : Obligations.NoCommandStopsWithoutAFault :=
  fun _ hwf hfault => ⟨step_completes hwf hfault, exec_completes hwf hfault⟩

end Sys2Proof.Machine
end

section
/-! PROOFS. The encoding: the fields of a word, what each row of R85 fixes of them, and from these the round trips and the
illegal words; the worked encodings and the assembler; PUSHS against SEND_RAW (30_encoding.md R80 to R96). -/

namespace Sys2Proof

open Machine Laws

/-! ### A word is its five fields (R80) -/

theorem extractLsb'_one (w : Word) (i : Nat) : w.extractLsb' i 1 = BitVec.ofBool (w.getLsbD i) := by
  ext j hj
  obtain rfl : j = 0 := by omega
  simp

@[simp] theorem Link.bit_m : Link.m.bit = 0 := rfl
@[simp] theorem Dir.bit_rx : Dir.rx.bit = 0 := rfl
@[simp] theorem Dir.bit_tx : Dir.tx.bit = 1 := rfl

theorem linkField_bit (w : Word) : (linkField w).bit = BitVec.ofBool (w.getLsbD 10) := by
  unfold linkField
  cases w.getLsbD 10 <;> rfl

theorem dirField_bit (w : Word) : (dirField w).bit = BitVec.ofBool (w.getLsbD 9) := by
  unfold dirField
  cases w.getLsbD 9 <;> rfl

/-- The fields of a word, put side by side in the order of R80, are the word. -/
theorem append_fields (w : Word) :
    opField w ++ (linkField w).bit ++ (dirField w).bit ++ BitVec.ofBool (zField w) ++ immField w = w := by
  rw [linkField_bit, dirField_bit, zField, ← extractLsb'_one, ← extractLsb'_one, ← extractLsb'_one]
  calc w.extractLsb' 11 5 ++ w.extractLsb' 10 1 ++ w.extractLsb' 9 1 ++ w.extractLsb' 8 1 ++ w.extractLsb' 0 8
    _ = w.extractLsb' 10 6 ++ w.extractLsb' 9 1 ++ w.extractLsb' 8 1 ++ w.extractLsb' 0 8 :=
      congrArg (· ++ _ ++ _ ++ _) (BitVec.extractLsb'_append_extractLsb'_eq_extractLsb' rfl)
    _ = w.extractLsb' 9 7 ++ w.extractLsb' 8 1 ++ w.extractLsb' 0 8 :=
      congrArg (· ++ _ ++ _) (BitVec.extractLsb'_append_extractLsb'_eq_extractLsb' rfl)
    _ = w.extractLsb' 8 8 ++ w.extractLsb' 0 8 :=
      congrArg (· ++ _) (BitVec.extractLsb'_append_extractLsb'_eq_extractLsb' rfl)
    _ = w.extractLsb' 0 16 := BitVec.extractLsb'_append_extractLsb'_eq_extractLsb' rfl
    _ = w := BitVec.extractLsb'_eq_self

/-- A word whose reserved bit is clear is assembled from its other fields. -/
theorem assembleWord_fields {w : Word} (hz : zField w = false) :
    assembleWord (opField w) (linkField w).bit (dirField w).bit (immField w) = w := by
  have happend := append_fields w
  rwa [hz] at happend

theorem word_ext {v w : Word} (hop : opField v = opField w) (hlink : linkField v = linkField w)
    (hdir : dirField v = dirField w) (hz : zField v = zField w) (himm : immField v = immField w) : v = w := by
  rw [← append_fields v, hop, hlink, hdir, hz, himm, append_fields]

/-! ### The fields of a masked word (R81) -/

theorem opField_and (v w : Word) : opField (v &&& w) = opField v &&& opField w := BitVec.extractLsb'_and

theorem immField_and (v w : Word) : immField (v &&& w) = immField v &&& immField w := BitVec.extractLsb'_and

theorem zField_and (v w : Word) : zField (v &&& w) = (zField v && zField w) := BitVec.getLsbD_and

theorem linkField_and (v w : Word) : linkField (v &&& w) = if linkField w = .t then linkField v else .m := by
  unfold linkField
  rw [BitVec.getLsbD_and]
  cases w.getLsbD 10 <;> simp

theorem dirField_and (v w : Word) : dirField (v &&& w) = if dirField w = .tx then dirField v else .rx := by
  unfold dirField
  rw [BitVec.getLsbD_and]
  cases w.getLsbD 9 <;> simp

/-! ### What a row fixes of a word (R85) -/

/-- The shape of a row's mask and pattern: OP and Z are fixed, Z at 0; L, D and IMM are each fixed or left open, IMM fixed
at 0, and the pattern of an open field is 0. -/
structure Row.Regular (r : Row) : Prop where
  op : opField r.mask = BitVec.allOnes 5
  z : zField r.mask = true ∧ zField r.pattern = false
  link : linkField r.mask = .m → linkField r.pattern = .m
  dir : dirField r.mask = .rx → dirField r.pattern = .rx
  imm : immField r.pattern = 0 ∧ (immField r.mask = 0 ∨ immField r.mask = BitVec.allOnes 8)

theorem regular_of_mem {r : Row} (hr : r ∈ opcodeTable) : Row.Regular r := by
  have hop : ∀ r ∈ opcodeTable, opField r.mask = BitVec.allOnes 5 := by decide
  have hz : ∀ r ∈ opcodeTable, zField r.mask = true ∧ zField r.pattern = false := by decide
  have hlink : ∀ r ∈ opcodeTable, linkField r.mask = .m → linkField r.pattern = .m := by decide
  have hdir : ∀ r ∈ opcodeTable, dirField r.mask = .rx → dirField r.pattern = .rx := by decide
  have himm : ∀ r ∈ opcodeTable,
      immField r.pattern = 0 ∧ (immField r.mask = 0 ∨ immField r.mask = BitVec.allOnes 8) := by decide
  exact ⟨hop r hr, hz r hr, hlink r hr, hdir r hr, himm r hr⟩

theorem accepts_iff_masked {r : Row} {w : Word} : r.accepts w = true ↔ w &&& r.mask = r.pattern := beq_iff_eq

/-- A row accepts a word exactly when the fields it fixes have the values of its pattern. -/
theorem accepts_iff {r : Row} (hr : r ∈ opcodeTable) (w : Word) :
    r.accepts w = true ↔ opField w = opField r.pattern ∧ zField w = false ∧
      (linkField r.mask = .t → linkField w = linkField r.pattern) ∧
      (dirField r.mask = .tx → dirField w = dirField r.pattern) ∧ (immField r.mask ≠ 0 → immField w = 0) := by
  obtain ⟨hop, ⟨hz, hz'⟩, hlink, hdir, himm, himm'⟩ := regular_of_mem hr
  have hopAnd : opField (w &&& r.mask) = opField w := by rw [opField_and, hop, BitVec.and_allOnes]
  have hzAnd : zField (w &&& r.mask) = zField w := by rw [zField_and, hz, Bool.and_true]
  rw [accepts_iff_masked]
  constructor
  · intro hmask
    rw [hmask] at hopAnd hzAnd
    refine ⟨hopAnd.symm, hzAnd.symm.trans hz', fun hfixed => ?_, fun hfixed => ?_, fun hfixed => ?_⟩
    · rw [← hmask, linkField_and, if_pos hfixed]
    · rw [← hmask, dirField_and, if_pos hfixed]
    · rw [← himm, ← hmask, immField_and, himm'.resolve_left hfixed, BitVec.and_allOnes]
  · rintro ⟨hwop, hwz, hwlink, hwdir, hwimm⟩
    refine word_ext (hopAnd.trans hwop) ?_ ?_ (hzAnd.trans (hwz.trans hz'.symm)) ?_
    · rw [linkField_and]
      cases hmask : linkField r.mask with
      | m => exact (hlink hmask).symm
      | t => exact hwlink hmask
    · rw [dirField_and]
      cases hmask : dirField r.mask with
      | rx => exact (hdir hmask).symm
      | tx => exact hwdir hmask
    · rw [immField_and, himm]
      rcases himm' with hopen | hfixed
      · rw [hopen]; exact BitVec.and_zero
      · rw [hfixed, BitVec.and_allOnes, hwimm (by rw [hfixed]; decide)]

theorem opField_of_accepts {r : Row} (hr : r ∈ opcodeTable) {w : Word} (haccepts : r.accepts w = true) :
    opField w = opField r.pattern := by
  obtain ⟨hop, -⟩ := (accepts_iff hr w).1 haccepts
  exact hop

/-- The columns of R85 say of a word with a row's OP that the row accepts it and that its operand rule holds. -/
theorem legalFields_iff_accepts {r : Row} (hr : r ∈ opcodeTable) {w : Word} (hop : opField w = opField r.pattern)
    (ops : Text) : legalFields w ops ↔ r.accepts w = true ∧ (r.takesOperand = false → ops = []) := by
  rw [accepts_iff hr, legalFields, hop]
  generalize linkField w = l, dirField w = d, immField w = imm
  fin_cases hr <;> simp [opField, linkField, dirField, immField, and_assoc]

/-- Only the twelve operation codes of the table have legal fields. -/
theorem exists_row_of_legalFields {w : Word} {ops : Text} (h : legalFields w ops) :
    ∃ r ∈ opcodeTable, opField w = opField r.pattern := by
  obtain ⟨-, h⟩ := h
  simp only [← BitVec.toNat_inj]
  split at h
  case h_13 => exact h.elim
  all_goals
    next hop => rw [hop]; decide

/-! ### Which row the decoder finds (R85, R87) -/

theorem nodup_opFields : (opcodeTable.map fun r => opField r.pattern).Nodup := by decide

theorem nodup_mnemonics : (opcodeTable.map Row.mnemonic).Nodup := by decide

/-- The rows are disjoint: their operation codes differ. -/
theorem row_eq_of_accepts {r r' : Row} (hr : r ∈ opcodeTable) (hr' : r' ∈ opcodeTable) {w : Word}
    (haccepts : r.accepts w = true) (haccepts' : r'.accepts w = true) : r = r' :=
  List.inj_on_of_nodup_map nodup_opFields hr hr'
    ((opField_of_accepts hr haccepts).symm.trans (opField_of_accepts hr' haccepts'))

theorem find_row_iff {r : Row} {w : Word} :
    opcodeTable.find? (fun r => r.accepts w) = some r ↔ r ∈ opcodeTable ∧ r.accepts w = true := by
  constructor
  · intro hfind
    exact ⟨List.mem_of_find?_eq_some hfind, List.find?_some (p := fun r : Row => r.accepts w) hfind⟩
  · rintro ⟨hr, haccepts⟩
    cases hfind : opcodeTable.find? (fun r => r.accepts w) with
    | none => exact absurd haccepts (List.find?_eq_none.1 hfind r hr)
    | some r' =>
      rw [row_eq_of_accepts hr (List.mem_of_find?_eq_some hfind) haccepts
        (List.find?_some (p := fun r : Row => r.accepts w) hfind)]

/-- The word and operand string spell the command of the row (R85, R87). -/
structure SpellsRow (mo : Option Nat) (w : Word) (ops : Text) (r : Row) : Prop where
  mem : r ∈ opcodeTable
  accepts : r.accepts w = true
  fits : operandFits mo ops = true
  operand : r.takesOperand = false → ops = []

theorem decode_of_spellsRow {mo : Option Nat} {w : Word} {ops : Text} {r : Row} (h : SpellsRow mo w ops r) :
    decode mo w ops = .command (r.mnemonic.build w ops) :=
  decode_of_find (find_row_iff.2 ⟨h.mem, h.accepts⟩) h.fits h.operand

theorem decode_of_not_spellsRow {mo : Option Nat} {w : Word} {ops : Text} (h : ∀ r, ¬ SpellsRow mo w ops r) :
    decode mo w ops = .illegalCommand w := by
  unfold decode
  split
  · rfl
  · next r hfind =>
    obtain ⟨hr, haccepts⟩ := find_row_iff.1 hfind
    split_ifs with hlong hcolumn
    · rfl
    · rfl
    · exact absurd ⟨hr, haccepts, by simpa using hlong, fun htakes => by simpa [htakes] using hcolumn⟩ (h r)

theorem decode_eq_command_iff {mo : Option Nat} {w : Word} {ops : Text} {i : Instr} :
    decode mo w ops = .command i ↔ ∃ r, SpellsRow mo w ops r ∧ r.mnemonic.build w ops = i := by
  constructor
  · intro hdecode
    by_cases h : ∃ r, SpellsRow mo w ops r
    · obtain ⟨r, hspells⟩ := h
      rw [decode_of_spellsRow hspells] at hdecode
      cases hdecode
      exact ⟨r, hspells, rfl⟩
    · cases (decode_of_not_spellsRow (not_exists.1 h)).symm.trans hdecode
  · rintro ⟨r, hspells, rfl⟩
    exact decode_of_spellsRow hspells

theorem decode_eq_illegalCommand_iff {mo : Option Nat} {w : Word} {ops : Text} :
    decode mo w ops = .illegalCommand w ↔ ∀ r, ¬ SpellsRow mo w ops r := by
  refine ⟨fun hdecode r hspells => ?_, decode_of_not_spellsRow⟩
  cases (decode_of_spellsRow hspells).symm.trans hdecode

/-- The constraints of R85, column by column and row by row, are the same. -/
theorem legalFields_iff_spellsRow {mo : Option Nat} {w : Word} {ops : Text} :
    legalFields w ops ∧ operandFits mo ops = true ↔ ∃ r, SpellsRow mo w ops r := by
  constructor
  · rintro ⟨hlegal, hfits⟩
    obtain ⟨r, hr, hop⟩ := exists_row_of_legalFields hlegal
    obtain ⟨haccepts, hoperand⟩ := (legalFields_iff_accepts hr hop ops).1 hlegal
    exact ⟨r, hr, haccepts, hfits, hoperand⟩
  · rintro ⟨r, hr, haccepts, hfits, hoperand⟩
    exact ⟨(legalFields_iff_accepts hr (opField_of_accepts hr haccepts) ops).2 ⟨haccepts, hoperand⟩, hfits⟩

/-! ### Encoding the command of a row (R80, R84) -/

theorem mnemonicOf_build (k : Mnemonic) (w : Word) (ops : Text) : mnemonicOf (k.build w ops) = k := by cases k <;> rfl

/-- Building a row's command loses no field of a word the row accepts: the fields its mnemonic drops are fixed. -/
theorem commandWord_build {r : Row} (hr : r ∈ opcodeTable) {w : Word} (haccepts : r.accepts w = true) (ops : Text) :
    commandWord (r.mnemonic.build w ops) = w := by
  obtain ⟨hop, hz, hlink, hdir, himm⟩ := (accepts_iff hr w).1 haccepts
  -- The word as its fields; then each row, its fixed fields first, and the fields its command is built from after.
  have hw := assembleWord_fields hz
  rw [hop] at hw
  generalize linkField w = l, dirField w = d, immField w = imm at hw hlink hdir himm
  subst hw
  fin_cases hr <;> simp [linkField, dirField, immField] at hlink hdir himm <;>
    simp [Mnemonic.build, commandWord, opField, hlink, hdir, himm]

theorem operand_build {r : Row} (hr : r ∈ opcodeTable) (w : Word) {ops : Text}
    (hoperand : r.takesOperand = false → ops = []) : (r.mnemonic.build w ops).operand = ops := by
  fin_cases hr <;> simp_all [Mnemonic.build, Instr.operand]

/-- A command's only spelling: what decodes to it is its own encoding (R85). -/
theorem encode_of_decode {mo : Option Nat} {w : Word} {ops : Text} {i : Instr} (hdecode : decode mo w ops = .command i) :
    encode i = (w, ops) ∧ i.wf mo = true := by
  obtain ⟨r, ⟨hr, haccepts, hfits, hoperand⟩, rfl⟩ := decode_eq_command_iff.1 hdecode
  have hops := operand_build hr w hoperand
  exact ⟨Prod.ext (commandWord_build hr haccepts ops) hops, by rwa [Instr.wf, hops]⟩

/-! ### The step of an illegal word (R88, R211) -/

theorem step_of_illegal {s : State} {c : Issue} {rest : List Issue} {w : Word} (hfault : s.fault = none)
    (hpending : s.pending = c :: rest) (hdecode : decode s.cfg.maxOperand c.word c.operand = .illegalCommand w) :
    step s = .next { s with pending := rest, fault := some (.illegalCommand w) } := by
  unfold step
  split
  · next hsome => simp [hfault] at hsome
  · simp only [State.nextIssue_cons hpending, hdecode]
    rw [State.raise_of_none (s := { s with pending := rest }) hfault]

/-! ### PUSHS and SEND_RAW (R96, R110, R192) -/

theorem exec_chPush_tx {s : State} {l : Link} {b : Byte} {tx : Channel} (hfault : s.fault = none)
    (hpush : push s.cfg.linkCap (s.link l).tx b = .ok tx) :
    exec (.chPush l .tx b) s = .next ((s.setLink l { s.link l with tx := tx }).respond respNone) := by
  have hbody : linkPush s.cfg (s.link l) .tx b = .ok { s.link l with tx := tx } := by
    rw [linkPush, txPush, hpush, except_bind_ok]
  rw [exec, execChPush, hbody, except_bind_ok, onLink_ok, perform_responds hfault]
  rfl

theorem exec_sendRaw {s : State} {l : Link} {x : Text} {tx : Channel} (hfault : s.fault = none)
    (hpush : pushString s.cfg.linkCap (s.link l).tx x = .ok tx) :
    exec (.sendRaw l x) s = .next ((s.setLink l { s.link l with tx := tx }).respond respNone) := by
  rw [exec, execSendRaw, txPushString, hpush, except_bind_ok, except_bind_ok, onLink_ok, perform_responds hfault]
  rfl

/-- Pushing the bytes one by one leaves the channel that `PushString` leaves, and one response for each byte. -/
theorem execAll_chPush_tx {s : State} {l : Link} {x : Text} {tx : Channel} (hfault : s.fault = none)
    (hpush : pushString s.cfg.linkCap (s.link l).tx x = .ok tx) :
    execAll (x.map fun b => .chPush l .tx b) s =
      .next { s.setLink l { s.link l with tx := tx } with
        responses := s.responses ++ List.replicate x.length respNone } := by
  induction x generalizing s with
  | nil =>
    cases hpush
    cases l <;> simp [execAll]
  | cons b x ih =>
    obtain ⟨tx₁, hfirst, hrest⟩ := except_bind_eq_ok hpush
    rw [List.map_cons, execAll, exec_chPush_tx hfault hfirst]
    simp only
    rw [ih]
    · cases l <;> simp [State.respond, State.setLink, State.link, List.replicate_succ]
    · cases l <;> exact hfault
    · cases l <;> exact hrest

/-! ### The statements -/

/-- Settles O14: the decoder finds the row of the command's mnemonic, and reads its fields back. -/
theorem decodeOfEncode : Obligations.DecodeOfEncode := fun _ _ hwf => decode_commandWord hwf

/-- Settles O15: the row that accepts the word fixes every field its command does not carry. -/
theorem encodeOfDecode : Obligations.EncodeOfDecode := fun _ _ _ _ hdecode => encode_of_decode hdecode

/-- Settles O16: the columns of R85 hold exactly when some row is spelled. -/
theorem illegalWordsAreExactlyTheRest : Obligations.IllegalWordsAreExactlyTheRest := by
  intro m w ops
  have hillegal : decode m w ops = .illegalCommand w ↔ ¬ (legalFields w ops ∧ operandFits m ops = true) := by
    rw [decode_eq_illegalCommand_iff, legalFields_iff_spellsRow, not_exists]
  refine ⟨hillegal, ?_⟩
  rintro s rest hfault rfl hpending hbroken
  exact step_of_illegal hfault hpending (hillegal.2 hbroken)

/-- Settles O17: a command names its row by its mnemonic, and a row its words by OP. -/
theorem rowsSpellTheirCommands : Obligations.RowsSpellTheirCommands := by
  refine ⟨rfl, fun m w ops r hr => ⟨fun hdecode => ?_, ?_⟩, fun w r hr => opField_of_accepts hr, ?_⟩
  · obtain ⟨r', ⟨hr', haccepts, hfits, hoperand⟩, hbuild⟩ := decode_eq_command_iff.1 hdecode
    have hmnemonic : r'.mnemonic = r.mnemonic := by
      rw [← mnemonicOf_build r'.mnemonic w ops, hbuild, mnemonicOf_build]
    obtain rfl : r' = r := List.inj_on_of_nodup_map nodup_mnemonics hr' hr hmnemonic
    exact ⟨accepts_iff_masked.1 haccepts, hfits, hoperand⟩
  · rintro ⟨hmask, hfits, hoperand⟩
    exact decode_of_spellsRow ⟨hr, accepts_iff_masked.2 hmask, hfits, hoperand⟩
  · exact List.pairwise_map.1 nodup_opFields

/-- Settles O28, by the channel both leave, which exists in a well-formed state. -/
theorem pushsLeavesTheStateOfSend : Obligations.PushsLeavesTheStateOfSend := by
  intro s l x hwf hfault
  obtain ⟨tx, -, hpush, -⟩ := txPushString_is x hwf.two_le_linkCap (hwf.linkIs l)
  exact ⟨_, _, execAll_chPush_tx hfault hpush, exec_sendRaw hfault hpush, rfl, rfl⟩

/-- An assembly line that stands for one command, with that command's encoding and its decoding. -/
theorem worked_line {line : String} {w : Word} {ops : Text} (i : Instr) (hline : assembleLine 0x1B line = some [i])
    (hencode : encode i = (w, ops)) :
    ∃ i, assembleLine 0x1B line = some [i] ∧ encode i = (w, ops) ∧ decode none w ops = .command i := by
  cases hencode
  exact ⟨i, hline, rfl, decode_commandWord rfl⟩

/-- Settles O18, each line by its command (R90). -/
theorem workedEncodings : Obligations.WorkedEncodings := by
  refine ⟨?_, by decide⟩
  simp only [List.forall_mem_cons]
  exact ⟨worked_line (.chPush .m .rx 0x4F) rfl rfl, worked_line (.chPush .m .rx 0x0D) rfl rfl,
    worked_line (.chPush .m .tx 0x41) rfl rfl, worked_line (.chPush .t .rx 0x0A) rfl rfl,
    worked_line (.chPush .t .tx 0xFF) rfl rfl, worked_line (.chPop .m .tx) rfl rfl, worked_line (.chPop .t .rx) rfl rfl,
    worked_line (.chAvail .m .rx) rfl rfl, worked_line (.chAvail .t .tx) rfl rfl,
    worked_line (.probe .m tokenOK) rfl rfl, worked_line (.probe .t tokenERROR) rfl rfl,
    worked_line (.extract .m 32) rfl rfl, worked_line (.skip .m) rfl rfl,
    worked_line (.execute [0x41, 0x54, 0x0D, 0x0A]) rfl rfl, worked_line (.sendRaw .m [0x41, 0x54, 0x0D, 0x0A]) rfl rfl,
    worked_line (.sendRaw .t [0x68, 0x69]) rfl rfl, worked_line (.sendUdp [0x58]) rfl rfl, worked_line .tryRecv rfl rfl,
    worked_line (.resetLink .m) rfl rfl, worked_line (.resetLink .t) rfl rfl, worked_line .service rfl rfl,
    List.forall_mem_nil _⟩

/-- Settles O19, line by line. -/
theorem assemblerRefusesAndExpands : Obligations.AssemblerRefusesAndExpands :=
  ⟨by decide, by decide, by decide, by decide⟩

end Sys2Proof
end

section
/-! PROOFS. The byte channels: a push, a pop and any sequence of them on one channel against the byte list it holds, then
CH_PUSH, CH_POP, CH_AVAIL and SERVICE in full, with what each leaves unchanged (40_byte_channel.md R100 to R108). -/

namespace Sys2Proof.Machine

/-! ### One channel (R100, R102, R106, R107) -/

/-- All that a push needs is that head is a slot. -/
theorem push_ok {cap : Nat} {ch : Channel} (b : Byte) (hhead : ch.head < cap) :
    push cap ch b = .ok
      { buf := Memory.write ch.buf ch.head b
        head := nextSlot cap ch.head
        tail := if nextSlot cap ch.head = ch.tail then nextSlot cap ch.tail else ch.tail } := by
  rw [push, chWrite_ok ch b hhead, except_bind_ok]

theorem push_read_head {cap : Nat} {ch ch' : Channel} {b : Byte} (hhead : ch.head < cap) (h : push cap ch b = .ok ch') :
    Memory.read ch'.buf ch.head = some b := by
  cases (push_ok b hhead).symm.trans h
  exact Memory.read_write_same _ _ _

/-- Everything `pop` does to a well-formed channel, empty or not. -/
theorem pop_holds {cap : Nat} {ch : Channel} {q : Text} (h : Holds cap ch q) :
    ∃ ch', pop cap ch = .ok (q.head?, ch') ∧ Holds cap ch' q.tail := by
  cases q with
  | nil => exact ⟨ch, pop_nil h, h⟩
  | cons b q =>
    obtain ⟨hpop, hrest⟩ := pop_cons h
    exact ⟨_, hpop, hrest⟩

theorem Holds.count_le {cap : Nat} {ch : Channel} {q : Text} (h : Holds cap ch q) : ch.count cap ≤ cap - 1 := by
  rw [h.count_eq]
  exact Nat.le_sub_one_of_lt h.length_lt

/-- `avail` compares the indices (R35). -/
theorem Channel.avail_iff (ch : Channel) : ch.avail = true ↔ ch.head ≠ ch.tail := bne_iff_ne

/-- A sequence of pushes and pops does to the channel what it does to the byte list the channel holds. -/
theorem runOps_holds {cap : Nat} {ch : Channel} {q : Text} (hcap : 2 ≤ cap) (h : Holds cap ch q) (ops : List ChanOp) :
    ∃ ch', runOps cap ch ops = .ok ((runOpsList (cap - 1) q ops).1, ch') ∧
      Holds cap ch' (runOpsList (cap - 1) q ops).2 := by
  induction ops generalizing ch q with
  | nil => exact ⟨ch, rfl, h⟩
  | cons op ops ih =>
    cases op with
    | push b =>
      obtain ⟨ch₁, hpush, h₁, -⟩ := push_holds b hcap h
      obtain ⟨ch₂, hrun, h₂⟩ := ih h₁
      exact ⟨ch₂, by rw [runOps, hpush, except_bind_ok, hrun, runOpsList], h₂⟩
    | pop =>
      obtain ⟨ch₁, hpop, h₁⟩ := pop_holds h
      obtain ⟨ch₂, hrun, h₂⟩ := ih h₁
      refine ⟨ch₂, ?_, h₂⟩
      rw [runOps, hpop, except_bind_ok]
      simp only [hrun, except_bind_ok, runOpsList]

/-- A list pushed into a well-formed channel, with the storage it writes (R107, R110). -/
theorem pushString_pushed {cap : Nat} {ch ch' : Channel} {x : Text} (hcap : 2 ≤ cap) (hwf : Channel.wf cap ch)
    (h : pushString cap ch x = .ok ch') : Pushed cap ch ch' x := by
  obtain ⟨ch₁, hpush, hholds⟩ := pushString_holds x hcap (Channel.wf_holds hwf)
  cases hpush.symm.trans h
  exact ⟨hholds, pushString_advanced hcap (Channel.wf_holds hwf) h⟩

theorem push_pushed {cap : Nat} {ch ch' : Channel} {b : Byte} (hcap : 2 ≤ cap) (hwf : Channel.wf cap ch)
    (h : push cap ch b = .ok ch') : Pushed cap ch ch' [b] :=
  pushString_pushed hcap hwf (pushString_cons_ok h rfl)

/-! ### A channel of a link (R101, R103, R105) -/

theorem State.wf.chanWf {s : State} (h : s.wf) (l : Link) (d : Dir) : Channel.wf s.cfg.linkCap (s.chan l d) :=
  (h.holds l d).1

/-- A push into a channel of a link; only a CR into RX is counted. -/
theorem linkPush_ok {cfg : Config} {k : LinkState} {d : Dir} {b : Byte} {ch : Channel}
    (h : push cfg.linkCap (k.chan d) b = .ok ch) :
    linkPush cfg k d b =
      .ok { k.setChan d ch with pcr := if d = .rx ∧ b = byteCR then satInc k.pcr else k.pcr } := by
  cases d with
  | rx =>
    rw [LinkState.chan_rx] at h
    rw [linkPush, rxPush, h, except_bind_ok]
    simp [LinkState.setChan]
  | tx =>
    rw [LinkState.chan_tx] at h
    rw [linkPush, txPush, h, except_bind_ok]
    simp [LinkState.setChan]

theorem everyCrDec_eq (acc : CrAccounting) (b : Byte) (c : BitVec 16) :
    everyCrDec acc b c = if acc = .everyCr ∧ b = byteCR then satDec c else c := by
  cases acc <;> simp [everyCrDec]

/-- A byte taken from a channel of a link; only a CR from RX under EVERY_CR is counted (R7, R102). -/
theorem linkTake_some {cfg : Config} {k : LinkState} {d : Dir} {b : Byte} {ch : Channel}
    (h : pop cfg.linkCap (k.chan d) = .ok (some b, ch)) :
    linkTake cfg k d = .ok (some b, { k.setChan d ch with
      pcr := if d = .rx ∧ cfg.crAccounting = .everyCr ∧ b = byteCR then satDec k.pcr else k.pcr }) := by
  cases d with
  | rx =>
    rw [LinkState.chan_rx] at h
    rw [linkTake, rxTake, h, except_bind_ok]
    simp [LinkState.setChan, everyCrDec_eq]
  | tx =>
    rw [LinkState.chan_tx] at h
    rw [linkTake, txPop, h, except_bind_ok]
    simp [LinkState.setChan]

theorem linkTake_nil {cfg : Config} {k : LinkState} {d : Dir} (h : Holds cfg.linkCap (k.chan d) []) :
    linkTake cfg k d = .ok (none, k) := by
  cases d with
  | rx => exact rxTake_nil h
  | tx => exact txPop_nil h

/-! ### The commands on one channel, given what the channel operation answers -/

section OneCommand

variable {s : State} (hfault : s.fault = none)
include hfault

theorem exec_chPush {l : Link} {d : Dir} {b : Byte} {ch : Channel} (h : push s.cfg.linkCap (s.chan l d) b = .ok ch) :
    exec (.chPush l d b) s = .next ((s.setLink l { (s.link l).setChan d ch with
      pcr := if d = .rx ∧ b = byteCR then satInc (s.link l).pcr else (s.link l).pcr }).respond respNone) := by
  rw [exec, execChPush, linkPush_ok h, except_bind_ok, onLink_ok, perform_responds hfault]
  rfl

/-- CH_POP answers with the byte that `linkTake` took, if any. -/
theorem exec_chPop_of_take {l : Link} {d : Dir} {r : Option Byte} {k : LinkState}
    (h : linkTake s.cfg (s.link l) d = .ok (r, k)) :
    exec (.chPop l d) s = .next ((s.setLink l k).respond (respByte r)) := by
  rw [exec, execChPop, h, except_bind_ok, onLink_ok, perform_responds hfault]
  rfl

theorem exec_chAvail (l : Link) (d : Dir) :
    exec (.chAvail l d) s = .next (s.respond (respBool (s.chan l d).avail)) := by
  rw [exec, execChAvail, perform_responds hfault]
  rfl

theorem exec_service {m t : LinkState} (hm : serviceLink s.cfg s.m s.nextDraw.rxM s.nextDraw.txM = .ok m)
    (ht : serviceLink s.cfg s.t s.nextDraw.rxT s.nextDraw.txT = .ok t) :
    exec .service s = .next ({ s.drawTaken with m := m, t := t }.respond respNone) := by
  have hservice : serviceNext s = .ok { s.drawTaken with m := m, t := t } := by
    rw [serviceNext, serviceWith, State.drawTaken_cfg, State.drawTaken_m, State.drawTaken_t, hm, except_bind_ok, ht,
      except_bind_ok]
    rfl
  rw [exec, execService, hservice, except_bind_ok, perform_responds hfault]
  rfl

end OneCommand

/-! ### One service of a link (R108) -/

/-- The receiver's delivery is a list pushed into RX, and the transmitter only moves the tail of TX. -/
theorem serviceLink_serviced {cfg : Config} {k : LinkState} (x : Text) (n : Nat) (hcap : 2 ≤ cfg.linkCap)
    (hwf : LinkState.wf cfg.linkCap k) : ∃ k', serviceLink cfg k x n = .ok k' ∧ Serviced cfg.linkCap k k' x n := by
  obtain ⟨rx, tx, hservice, hk, hpush, hbuf, hhead⟩ := serviceLink_is x n hcap (LinkState.wf_is hwf)
  obtain ⟨-, htx, -, -⟩ := linkIs_iff.1 hk
  obtain ⟨hrx, -⟩ := hwf
  exact ⟨_, hservice, pushString_pushed hcap hrx hpush, ⟨hbuf, hhead, htx⟩, rfl, rfl⟩

theorem State.nextDraw_of_cons {s : State} {d : Draw} {ds : List Draw} (h : s.draws = d :: ds) : s.nextDraw = d := by
  rw [State.nextDraw, h, pickDraw]

/-! ### The statements -/

/-- Settles O22: the push answers as soon as head is a slot. -/
theorem pushWritesHeadAndEvicts : Obligations.PushWritesHeadAndEvicts := fun _ _ b hhead => push_ok b hhead

/-- Settles O26: the answer is `avail`, and a well-formed channel is empty exactly when head equals tail. -/
theorem chAvailComparesHeadAndTail : Obligations.ChAvailComparesHeadAndTail := by
  refine fun s l d hfault => ⟨?_, fun hwf => (hwf.holds l d).head_eq_tail_iff.not⟩
  rw [exec_chAvail hfault]
  simp only [respBool, Channel.avail_iff]

/-- Settles O23: the bytes lost are the ones `lastN` drops, and a sequence of operations follows the byte list. -/
theorem overflowDropsTheOldestBytes : Obligations.OverflowDropsTheOldestBytes := by
  intro cap ch hcap hwf
  have hholds := Channel.wf_holds hwf
  refine ⟨fun x => ?_, fun ops => ?_⟩
  · obtain ⟨ch', hpush, h'⟩ := pushString_holds x hcap hholds
    have hcontent := h'.2
    refine ⟨ch', (ch.content cap ++ x).take ((ch.content cap ++ x).length - (cap - 1)), hpush, h'.1, hcontent, ?_, ?_,
      h'.count_le⟩
    · rw [hcontent, lastN, List.take_append_drop]
    · rw [List.length_take, List.length_append]
      exact Nat.min_eq_left (Nat.sub_le _ _)
  · obtain ⟨ch', hrun, h'⟩ := runOps_holds hcap hholds ops
    exact ⟨ch', hrun, h'.1, h'.2, h'.count_le⟩

/-- Settles O24: the command is one push into the channel. -/
theorem chPushAppendsItsByte : Obligations.ChPushAppendsItsByte := by
  intro s l d b hwf hfault
  obtain ⟨-, -, hhead, -, -⟩ := hwf.chanWf l d
  have hpush := push_ok b hhead
  exact ⟨_, exec_chPush hfault hpush, push_pushed hwf.two_le_linkCap (hwf.chanWf l d) hpush,
    push_read_head hhead hpush⟩

/-- Settles O25: the command is one take from the channel, which the content decides. -/
theorem chPopTakesTheOldestByte : Obligations.ChPopTakesTheOldestByte := by
  intro s l d hwf hfault
  have hholds := hwf.holds l d
  refine ⟨fun hempty => ?_, fun b q hcons => ?_⟩
  · rw [hempty] at hholds
    rw [exec_chPop_of_take hfault (linkTake_nil hholds), State.setLink_self]
    rfl
  · rw [hcons] at hholds
    obtain ⟨hpop, hrest⟩ := pop_cons hholds
    exact ⟨_, exec_chPop_of_take hfault (linkTake_some hpop), ⟨rfl, rfl, hrest⟩, rfl⟩

/-- Settles O27: each link is serviced under its half of the draw. -/
theorem serviceExchangesBothLinks : Obligations.ServiceExchangesBothLinks := by
  intro s hwf hfault
  have hcap := hwf.two_le_linkCap
  obtain ⟨m, hm, hservicedM⟩ := serviceLink_serviced s.nextDraw.rxM s.nextDraw.txM hcap (hwf.linkWf .m)
  obtain ⟨t, ht, hservicedT⟩ := serviceLink_serviced s.nextDraw.rxT s.nextDraw.txT hcap (hwf.linkWf .t)
  exact ⟨m, t, exec_service hfault hm ht, hservicedM, hservicedT, fun _ _ => State.nextDraw_of_cons⟩

end Sys2Proof.Machine
end

section
/-! PROOFS. The line matcher: a normalised read and a match as spellings of the bytes consumed, one line extracted or
skipped, then PROBE, EXTRACT and SKIP in full (41_line_matcher.md R120 to R128). -/

namespace Sys2Proof.Machine

/-! ### NormRead as a spelling (R120) -/

theorem skipMarkerList_eq_some_iff {esc b c : Byte} {y r : Text} :
    skipMarkerList esc (b, y) = some (c, r) ↔
      (b ≠ esc ∧ b = c ∧ y = r) ∨ (b = esc ∧ ∃ m n, y = m :: n :: c :: r) := by
  by_cases hesc : b = esc
  · rcases y with _ | ⟨m, _ | ⟨n, _ | ⟨d, y⟩⟩⟩ <;> simp [skipMarkerList, hesc]
  · simp [skipMarkerList, hesc]

/-- The byte an LF is skipped for, or the first byte itself. -/
theorem normList_cons (esc b : Byte) (y : Text) :
    normList esc (b :: y) =
      if b = byteLF then (readList y).bind (skipMarkerList esc) else skipMarkerList esc (b, y) := by
  simp only [normList, readList, Option.bind_some, skipLFList]
  split_ifs
  · rfl
  · rfl

theorem normList_of_normUnit {esc c : Byte} {v : Text} (h : NormUnit esc v c) (r : Text) :
    normList esc (v ++ r) = some (c, r) := by
  cases h with
  | plain _ hlf hesc => simp [normList_cons, hlf, skipMarkerList, hesc]
  | afterLF _ hesc => simp [normList_cons, readList, skipMarkerList, hesc]
  | afterMarker m n _ hlf => simp [normList_cons, hlf, skipMarkerList]
  | afterLFMarker m n _ => simp [normList_cons, readList, skipMarkerList]

theorem exists_normUnit_of_normList {esc c : Byte} {x r : Text} (h : normList esc x = some (c, r)) :
    ∃ v, NormUnit esc v c ∧ x = v ++ r := by
  rcases x with _ | ⟨b, y⟩
  · cases h
  rw [normList_cons] at h
  split_ifs at h with hlf
  · subst hlf
    rcases y with _ | ⟨d, z⟩
    · cases h
    rcases skipMarkerList_eq_some_iff.1 h with ⟨hesc, rfl, rfl⟩ | ⟨rfl, m, n, rfl⟩
    · exact ⟨_, .afterLF d hesc, rfl⟩
    · exact ⟨_, .afterLFMarker m n c, rfl⟩
  · rcases skipMarkerList_eq_some_iff.1 h with ⟨hesc, rfl, rfl⟩ | ⟨rfl, m, n, rfl⟩
    · exact ⟨_, .plain b hlf hesc, rfl⟩
    · exact ⟨_, .afterMarker m n c hlf, rfl⟩

/-- `NormRead` takes exactly the channel bytes that make one normalised byte. -/
theorem normList_eq_some_iff {esc c : Byte} {x r : Text} :
    normList esc x = some (c, r) ↔ ∃ v, NormUnit esc v c ∧ x = v ++ r := by
  refine ⟨exists_normUnit_of_normList, ?_⟩
  rintro ⟨v, hv, rfl⟩
  exact normList_of_normUnit hv r

/-! ### A match as a spelling (R121) -/

theorem spells_nil_iff {esc : Byte} {u : Text} : Spells esc u [] ↔ u = [] := by
  simp [Spells]

theorem spells_cons_iff {esc c : Byte} {u e : Text} :
    Spells esc u (c :: e) ↔ ∃ v w, NormUnit esc v c ∧ Spells esc w e ∧ u = v ++ w := by
  constructor
  · rintro ⟨us, hus, rfl⟩
    cases hus with
    | cons hv hvs => exact ⟨_, _, hv, ⟨_, hvs, rfl⟩, rfl⟩
  · rintro ⟨v, w, hv, ⟨vs, hvs, rfl⟩, rfl⟩
    exact ⟨v :: vs, .cons hv hvs, rfl⟩

theorem matchList_cons_eq_some_iff {esc c : Byte} {x e r : Text} :
    matchList esc x (c :: e) = some r ↔ ∃ y, normList esc x = some (c, y) ∧ matchList esc y e = some r := by
  rw [matchList]
  rcases normList esc x with _ | ⟨b, y⟩
  · simp
  · by_cases hb : b = c <;> simp [hb]

/-- The comparisons of a probe succeed exactly on the spellings of the expected string, and leave what follows them. -/
theorem matchList_eq_some_iff {esc : Byte} {x e r : Text} :
    matchList esc x e = some r ↔ ∃ u, Spells esc u e ∧ x = u ++ r := by
  induction e generalizing x with
  | nil => simp [matchList, spells_nil_iff]
  | cons c e ih =>
    simp only [matchList_cons_eq_some_iff, normList_eq_some_iff, ih, spells_cons_iff]
    constructor
    · rintro ⟨_, ⟨v, hv, rfl⟩, w, hw, rfl⟩
      exact ⟨v ++ w, ⟨v, w, hv, hw, rfl⟩, (List.append_assoc v w r).symm⟩
    · rintro ⟨_, ⟨v, w, hv, hw, rfl⟩, rfl⟩
      exact ⟨w ++ r, ⟨v, hv, List.append_assoc v w r⟩, w, hw, rfl⟩

theorem matchList_of_spells {esc : Byte} {u e : Text} (h : Spells esc u e) (r : Text) :
    matchList esc (u ++ r) e = some r :=
  matchList_eq_some_iff.2 ⟨u, h, rfl⟩

theorem matchList_of_not_found {esc : Byte} {q e : Text} (h : ¬ Found esc q e) : matchList esc q e = none := by
  refine Option.eq_none_iff_forall_not_mem.2 fun r hr => h ?_
  obtain ⟨u, hu, hq⟩ := matchList_eq_some_iff.1 hr
  exact ⟨u, r, hu, hq⟩

/-! ### The trailing CR (R121) -/

theorem trailingCr_of_normUnit {esc : Byte} {v : Text} (h : NormUnit esc v byteCR) (r : Text) :
    trailingCr esc (v ++ r) = (r, true) := by
  simp [trailingCr, normList_of_normUnit h]

theorem trailingCr_of_no_cr {esc : Byte} {r : Text} (h : ¬ ∃ v r', NormUnit esc v byteCR ∧ r = v ++ r') :
    trailingCr esc r = (r, false) := by
  rw [trailingCr]
  split
  · rfl
  · next c r' hread =>
    obtain ⟨v, hv, hr⟩ := normList_eq_some_iff.1 hread
    rw [if_neg]
    rintro rfl
    exact h ⟨v, r', hv, hr⟩

/-! ### One line extracted or skipped (R125, R127) -/

/-- A bounded append keeps the first `cap - 1` bytes. -/
theorem satAppend_eq_take {x : Text} {cap : Nat} (b : Byte) (h : x.length ≤ cap - 1) :
    satAppend x b cap = (x ++ [b]).take (cap - 1) := by
  unfold satAppend
  split_ifs with hroom
  · rw [List.take_of_length_le]
    simp only [List.length_append, List.length_singleton]
    omega
  · rw [List.take_append_of_le_length (by omega), List.take_of_length_le h]

theorem isPrintable_eq_not_isControl (b : Byte) : isPrintable b = !isControl b := by
  rw [isPrintable, isControl, ← decide_not]
  simp only [Nat.not_lt]

/-- A cut before an append is lost in the same cut after it. -/
theorem take_take_append (n : Nat) (x y : Text) : (x.take n ++ y).take n = (x ++ y).take n := by
  rcases le_total n x.length with hn | hn
  · rw [List.take_append_of_le_length hn, List.take_append_of_le_length (by simp [hn]), List.take_take, min_self]
  · rw [List.take_of_length_le hn]

/-- The bytes of a line are collected, as far as they are printable and there is room, before what ends it is read. -/
theorem extractList_line {cap : Nat} {x line : Text} (rest : Text) (hx : x.length ≤ cap - 1) (hline : noTerminator line) :
    extractList cap x (line ++ rest) = extractList cap ((x ++ line.filter isPrintable).take (cap - 1)) rest := by
  induction line generalizing x with
  | nil => simp [List.take_of_length_le hx]
  | cons b line ih =>
    obtain ⟨hcr, hnul⟩ := hline
    obtain ⟨hbcr, hcr⟩ := List.ne_and_not_mem_of_not_mem_cons hcr
    obtain ⟨hbnul, hnul⟩ := List.ne_and_not_mem_of_not_mem_cons hnul
    rw [List.cons_append, extractList, if_neg hbcr.symm, if_neg hbnul.symm]
    cases hctl : isControl b with
    | true =>
      rw [if_pos rfl, ih hx ⟨hcr, hnul⟩]
      simp [isPrintable_eq_not_isControl, hctl]
    | false =>
      rw [if_neg Bool.false_ne_true, ih (satAppend_length hx) ⟨hcr, hnul⟩, satAppend_eq_take b hx]
      simp [isPrintable_eq_not_isControl, hctl, take_take_append]

/-- A line extracted from its start. -/
theorem extractList_keptText {line : Text} (cap : Nat) (rest : Text) (hline : noTerminator line) :
    extractList cap [] (line ++ rest) = extractList cap (keptText cap line) rest :=
  extractList_line rest (Nat.zero_le _) hline

theorem skipList_line {line : Text} (rest : Text) (hline : byteCR ∉ line) : skipList (line ++ rest) = skipList rest := by
  induction line with
  | nil => rfl
  | cons b line ih =>
    obtain ⟨hb, hline⟩ := List.ne_and_not_mem_of_not_mem_cons hline
    rw [List.cons_append, skipList, if_neg hb.symm, ih hline]

/-! ### The queue machine's matcher, where its list operation is known -/

theorem QLink.probe_of_mismatch {cfg : Config} {q : QLink} {e : Text} (h : matchList cfg.escByte q.rx e = none) :
    q.probe cfg e = (false, q) := by
  simp only [QLink.probe, h]

theorem QLink.probe_of_match {cfg : Config} {q : QLink} {e r r' : Text} {cr : Bool}
    (h : matchList cfg.escByte q.rx e = some r) (hcr : trailingCr cfg.escByte r = (r', cr)) :
    q.probe cfg e =
      (true, { q with rx := r', pcr := commitPcr cfg.crAccounting q.pcr (consumed q.rx r') cr }) := by
  simp only [QLink.probe, h, hcr]

theorem QLink.extract_of_list {q : QLink} {cap : Nat} {x r : Text} {cr : Bool}
    (h : extractList cap [] q.rx = (x, r, cr)) :
    q.extract cap = (x, { q with rx := r, pcr := if cr then satDec q.pcr else q.pcr }) := by
  simp only [QLink.extract, h]

theorem QLink.skip_of_cr {q : QLink} {r : Text} (h : skipList q.rx = some r) :
    q.skip = { q with rx := r, pcr := satDec q.pcr } := by
  simp only [QLink.skip, h]

theorem QLink.skip_of_no_cr {q : QLink} (h : skipList q.rx = none) : q.skip = { q with rx := [], pcr := 0 } := by
  simp only [QLink.skip, h]

/-! ### A command on one link, in every state -/

theorem perform_onLink {s : State} {l : Link} {body : Except Fault (Response × LinkState)} {r : Response} {k : LinkState}
    (hfault : s.fault = none) (hbody : body = .ok (r, k)) :
    perform s (onLink s l body) = .next ((s.setLink l k).respond r) := by
  rw [hbody, onLink_ok, perform_responds hfault]
  rfl

theorem perform_onLink_next {s t : State} {l : Link} {body : Except Fault (Response × LinkState)}
    (h : perform s (onLink s l body) = .next t) : ∃ r k, body = .ok (r, k) ∧ t = (s.setLink l k).respond r := by
  obtain ⟨-, ⟨r, s', hbody, rfl⟩ | ⟨r, hbody, -⟩⟩ := perform_next h
  · obtain ⟨r', k, hk, hs'⟩ := onLink_eq_ok hbody
    cases hs'
    exact ⟨r, k, hk, rfl⟩
  · obtain ⟨r', k, -, hs'⟩ := onLink_eq_ok hbody
    cases hs'

/-- A probe that answers false stopped at its comparisons, before any write (R121). -/
theorem probe_false_eq_ok {cfg : Config} {k k' : LinkState} {e : Text} (h : probe cfg k e = .ok (false, k')) : k' = k := by
  obtain ⟨w, -, h⟩ := except_bind_eq_ok h
  cases w with
  | none => cases h; rfl
  | some w =>
    obtain ⟨n, -, h⟩ := except_bind_eq_ok h
    cases n with
    | none =>
      obtain ⟨k₁, -, h⟩ := except_bind_eq_ok h
      cases h
    | some p =>
      simp only [] at h
      split at h
      all_goals
        obtain ⟨k₁, -, h⟩ := except_bind_eq_ok h
        cases h

theorem respBool_injective : Function.Injective respBool := by decide

/-- The response tells that the probe answered false, and then it left its link as it was. -/
theorem probe_false_next {s t : State} {l : Link} {e : Text} (h : exec (.probe l e) s = .next t)
    (hresponses : t.responses = s.responses ++ [⟨0x0000, []⟩]) : t = s.respond ⟨0x0000, []⟩ := by
  obtain ⟨r, k, hbody, rfl⟩ := perform_onLink_next h
  obtain ⟨⟨b, k'⟩, hprobe, hk⟩ := except_bind_eq_ok hbody
  cases hk
  change (s.setLink l k).responses ++ [respBool b] = s.responses ++ [respBool false] at hresponses
  rw [State.setLink_responses] at hresponses
  cases respBool_injective (List.singleton_inj.1 (List.append_cancel_left hresponses))
  rw [probe_false_eq_ok hprobe, State.setLink_self]
  rfl

/-! ### The matcher's commands in a well-formed state -/

theorem State.abs_link_rx (s : State) (l : Link) : (s.abs.link l).rx = s.content l .rx := by cases l <;> rfl

theorem State.abs_link_pcr (s : State) (l : Link) : (s.abs.link l).pcr = (s.link l).pcr := by cases l <;> rfl

section OneCommand

variable {s : State} (hwf : s.wf) (hfault : s.fault = none)
include hwf hfault

/-- PROBE answers and leaves what the queue machine's probe does, with no storage written. -/
theorem exec_probe_is (l : Link) {e : Text} {b : Bool} {q : QLink} (hq : (s.abs.link l).probe s.cfg e = (b, q)) :
    ∃ ch, exec (.probe l e) s = .next ((s.setLink l { s.link l with rx := ch, pcr := q.pcr }).respond (respBool b)) ∧
      Consumed s.cfg.linkCap (s.link l).rx ch q.rx := by
  obtain ⟨rx, hprobe, hk, hbuf, hhead, -⟩ := probe_is e (hwf.linkIs l)
  rw [hq] at hprobe hk
  exact ⟨rx, perform_onLink hfault (by rw [hprobe]; rfl), hbuf, hhead, (linkIs_iff.1 hk).1⟩

theorem exec_extract_is (l : Link) {cap : Byte} {x : Text} {q : QLink}
    (hq : (s.abs.link l).extract cap.toNat = (x, q)) :
    ∃ ch, exec (.extract l cap) s = .next ((s.setLink l { s.link l with rx := ch, pcr := q.pcr }).respond (respText x)) ∧
      Consumed s.cfg.linkCap (s.link l).rx ch q.rx := by
  obtain ⟨rx, hextract, hk, hbuf, hhead⟩ := extract_is cap.toNat (hwf.linkIs l)
  rw [hq] at hextract hk
  exact ⟨rx, perform_onLink hfault (by rw [hextract]; rfl), hbuf, hhead, (linkIs_iff.1 hk).1⟩

theorem exec_skip_is (l : Link) {q : QLink} (hq : (s.abs.link l).skip = q) :
    ∃ ch, exec (.skip l) s = .next ((s.setLink l { s.link l with rx := ch, pcr := q.pcr }).respond respNone) ∧
      Consumed s.cfg.linkCap (s.link l).rx ch q.rx := by
  obtain ⟨rx, hskip, hk, hbuf, hhead⟩ := skipLine_is (hwf.linkIs l)
  rw [hq] at hskip hk
  exact ⟨rx, perform_onLink hfault (by rw [hskip]; rfl), hbuf, hhead, (linkIs_iff.1 hk).1⟩

/-- A content that spells the expected string and then a CR: both are consumed (R121, R122). -/
theorem exec_probe_of_cr (l : Link) {e u v r : Text} (hu : Spells s.cfg.escByte u e)
    (hv : NormUnit s.cfg.escByte v byteCR) (hq : s.content l .rx = u ++ (v ++ r)) :
    ∃ ch, exec (.probe l e) s = .next ((s.setLink l { s.link l with
        rx := ch
        pcr := commitPcr s.cfg.crAccounting (s.link l).pcr (u ++ v) true }).respond ⟨0x0001, []⟩) ∧
      Consumed s.cfg.linkCap (s.link l).rx ch r := by
  have hrx : (s.abs.link l).rx = u ++ (v ++ r) := (s.abs_link_rx l).trans hq
  have hprobe := QLink.probe_of_match (hrx ▸ matchList_of_spells hu (v ++ r)) (trailingCr_of_normUnit hv r)
  rw [hrx, ← List.append_assoc, consumed_append, State.abs_link_pcr] at hprobe
  exact exec_probe_is hwf hfault l hprobe

/-- A content that spells the expected string, with no CR to read next: the rest stays (R121, R122). -/
theorem exec_probe_of_no_cr (l : Link) {e u r : Text} (hu : Spells s.cfg.escByte u e)
    (hr : ¬ ∃ v r', NormUnit s.cfg.escByte v byteCR ∧ r = v ++ r') (hq : s.content l .rx = u ++ r) :
    ∃ ch, exec (.probe l e) s = .next ((s.setLink l { s.link l with
        rx := ch
        pcr := commitPcr s.cfg.crAccounting (s.link l).pcr u false }).respond ⟨0x0001, []⟩) ∧
      Consumed s.cfg.linkCap (s.link l).rx ch r := by
  have hrx : (s.abs.link l).rx = u ++ r := (s.abs_link_rx l).trans hq
  have hprobe := QLink.probe_of_match (hrx ▸ matchList_of_spells hu r) (trailingCr_of_no_cr hr)
  rw [hrx, consumed_append, State.abs_link_pcr] at hprobe
  exact exec_probe_is hwf hfault l hprobe

/-- A failing probe in a well-formed state answers, and leaves the link alone. -/
theorem exec_probe_of_not_found (l : Link) {e : Text} (h : ¬ Found s.cfg.escByte (s.content l .rx) e) :
    exec (.probe l e) s = .next (s.respond ⟨0x0000, []⟩) := by
  have hmatch : matchList s.cfg.escByte (s.abs.link l).rx e = none := by
    rw [State.abs_link_rx]
    exact matchList_of_not_found h
  obtain ⟨ch, hexec, -⟩ := exec_probe_is hwf hfault l (QLink.probe_of_mismatch hmatch)
  rw [hexec, probe_false_next hexec (by simp [State.respond, respBool])]

/-- EXTRACT, given what the same scan of the content finds. -/
theorem exec_extract_of_list (l : Link) {cap : Byte} {x r : Text} {cr : Bool}
    (h : extractList cap.toNat [] (s.content l .rx) = (x, r, cr)) :
    ∃ ch, exec (.extract l cap) s = .next ((s.setLink l { s.link l with
        rx := ch
        pcr := if cr then satDec (s.link l).pcr else (s.link l).pcr }).respond ⟨BitVec.ofNat 16 x.length, [x]⟩) ∧
      Consumed s.cfg.linkCap (s.link l).rx ch r := by
  rw [← State.abs_link_rx] at h
  have hextract := QLink.extract_of_list h
  rw [State.abs_link_pcr] at hextract
  exact exec_extract_is hwf hfault l hextract

end OneCommand

/-! ### The statements -/

/-- Settles O29: a probe that answers false wrote nothing, whatever the state. -/
theorem failedProbeChangesNothing : Obligations.FailedProbeChangesNothing :=
  fun _ _ _ _ hexec hresponses => probe_false_next hexec hresponses

/-- Settles O30: a match is a spelling of the expected string, and the trailing check one more normalised read. -/
theorem probeMatchesNormalisedBytes : Obligations.ProbeMatchesNormalisedBytes := by
  intro s l e hwf hfault
  refine ⟨exec_probe_of_not_found hwf hfault l, fun u r hu hq => ⟨fun v r' hv hr => ?_, fun hr => ?_⟩⟩
  · exact exec_probe_of_cr hwf hfault l hu hv (hr ▸ hq)
  · exact exec_probe_of_no_cr hwf hfault l hu hr hq

/-- At the default escape byte "OK" spells itself: no byte of it is LF or ESC. -/
theorem spells_tokenOK : Spells 0x1B tokenOK tokenOK :=
  ⟨[[byteO], [byteK]], .cons (.plain _ (by decide) (by decide)) (.cons (.plain _ (by decide) (by decide)) .nil), rfl⟩

/-- Settles O31: after "OK" both a CR and an LF CR normalise to a CR, the only one of the bytes consumed. -/
theorem probeOkToleratesALineFeed : Obligations.ProbeOkToleratesALineFeed := by
  intro s l r hwf hfault hesc hq
  have hu : Spells s.cfg.escByte tokenOK tokenOK := hesc ▸ spells_tokenOK
  have hne : byteCR ≠ s.cfg.escByte := by rw [hesc]; decide
  have hpcr : ∀ v, v = [byteCR] ∨ v = [byteLF, byteCR] →
      commitPcr s.cfg.crAccounting (s.link l).pcr (tokenOK ++ v) true = satDec (s.link l).pcr := by
    rintro v (rfl | rfl) <;> cases s.cfg.crAccounting <;> rfl
  rcases hq with hq | hq
  · have h := exec_probe_of_cr hwf hfault l hu (.plain _ (by decide) hne) hq
    rwa [hpcr _ (.inl rfl)] at h
  · have h := exec_probe_of_cr hwf hfault l hu (.afterLF _ hne) hq
    rwa [hpcr _ (.inr rfl)] at h

/-- Settles O32: the line is collected up to what ends it, a CR, a NUL or the end of the channel. -/
theorem extractCopiesOneLine : Obligations.ExtractCopiesOneLine := by
  intro s l cap line rest hwf hfault hline
  refine ⟨fun hq => ?_, fun hq => ?_, fun hq => ?_⟩
  · exact exec_extract_of_list hwf hfault l (cr := true) (hq ▸ extractList_keptText cap.toNat (byteCR :: rest) hline)
  · exact exec_extract_of_list hwf hfault l (cr := false) (hq ▸ extractList_keptText cap.toNat (byteNUL :: rest) hline)
  · have hend := extractList_keptText cap.toNat [] hline
    rw [List.append_nil] at hend
    exact exec_extract_of_list hwf hfault l (cr := false) (hq ▸ hend)

/-- Settles O33: the line holds no CR, so the scan reaches what follows it. -/
theorem skipDiscardsOneLine : Obligations.SkipDiscardsOneLine := by
  intro s l line rest hwf hfault hline
  refine ⟨fun hq => ?_, fun hq => ?_⟩
  · have hskip := QLink.skip_of_cr (q := s.abs.link l) (r := rest) (by
      rw [State.abs_link_rx, hq]
      exact skipList_line (byteCR :: rest) hline)
    rw [State.abs_link_pcr] at hskip
    exact exec_skip_is hwf hfault l hskip
  · have hskip := QLink.skip_of_no_cr (q := s.abs.link l) (by
      have hend := skipList_line [] hline
      rwa [List.append_nil, ← hq, ← State.abs_link_rx] at hend)
    exact exec_skip_is hwf hfault l hskip

end Sys2Proof.Machine
end

section
/-! PROOFS. The command engine: EXECUTE as a command text pushed and then a poll; what the poll answers, by the queue
machine; and the poll against a silent peer (42_command_engine.md R140 to R147). -/

namespace Sys2Proof.Machine

/-! ### EXECUTE is a push and then a poll (R140) -/

/-- The queue machine once EXECUTE has pushed its command text. -/
def QState.commanded (q : QState) (x : Text) : QState := { q with m := { q.m with tx := qAppend q.cfg q.m.tx x } }

theorem QState.exec_execute (q : QState) (x : Text) :
    QState.exec (.execute x) q = ((q.commanded x).poll q.cfg.waitBudget none).2.2.respond
      (respResult ((q.commanded x).poll q.cfg.waitBudget none).1 ((q.commanded x).poll q.cfg.waitBudget none).2.1) := rfl

theorem QState.exec_execute_of_poll {q q' : QState} {x : Text} {r : CommandResult} {line : Option Text}
    (h : (q.commanded x).poll q.cfg.waitBudget none = (r, line, q')) :
    QState.exec (.execute x) q = q'.respond (respResult r line) := by
  rw [QState.exec_execute, h]

/-- The state after j services that left the links m and t. -/
def State.polled (s : State) (j : Nat) (m t : LinkState) : State :=
  { s with m := m, t := t, draws := s.draws.drop j, serviced := s.serviced + j }

/-- Which storage the links m and t share with those of s, after EXECUTE pushed x and ran j services. -/
structure PolledStorage (s : State) (x : Text) (j : Nat) (m t : LinkState) : Prop where
  mTx : Advanced s.cfg.linkCap x.length s.m.tx m.tx
  mRx : Advanced s.cfg.linkCap (receivedM (s.drawsAhead j)) s.m.rx m.rx
  tTxBuf : t.tx.buf = s.t.tx.buf
  tTxHead : t.tx.head = s.t.tx.head
  tRx : Advanced s.cfg.linkCap (receivedT (s.drawsAhead j)) s.t.rx t.rx

/-- Everything EXECUTE does to a well-formed state: the queue machine's poll gives its answer and its content. -/
theorem exec_execute_is {s : State} (hwf : s.wf) (hfault : s.fault = none) (x : Text) :
    ∃ r line j m t, exec (.execute x) s = .next ((s.polled j m t).respond (respResult r line)) ∧
      (s.abs.commanded x).poll s.cfg.waitBudget none = (r, line, (s.polled j m t).abs) ∧
      r ≠ .data ∧ j ≤ s.cfg.waitBudget ∧ (r = .timeout → j = s.cfg.waitBudget) ∧
      LinksWf (s.polled j m t) ∧ PolledStorage s x j m t := by
  obtain ⟨tx, hpush, hpushed, hkwf, hkabs⟩ := txPushString_is x hwf.two_le_linkCap hwf.linkIs_m
  have hadvanced : Advanced s.cfg.linkCap x.length s.m.tx tx :=
    pushString_advanced hwf.two_le_linkCap (hwf.holds .m .tx) hpushed
  have hwf₁ : ({ s with m := { s.m with tx := tx } } : State).wf := hwf.setLink .m hkwf
  have habs : ({ s with m := { s.m with tx := tx } } : State).abs = s.abs.commanded x :=
    congrArg (fun q : QLink => { s.abs with m := q }) hkabs
  obtain ⟨-, -, htxhead, -⟩ := hkwf.2
  obtain ⟨j, hj, m, t, hpoll, hlinks, hcontent, hdata, htimeout, hmRx, hmTxBuf, hmTxHead, htRx, htTxBuf, htTxHead⟩ :=
    pollLoop_is (n := s.cfg.waitBudget) (line := none) hwf₁.links
  rw [habs] at hpoll hcontent hdata htimeout
  refine ⟨_, _, j, m, t, ?_, Prod.ext rfl (Prod.ext rfl hcontent.symm), hdata, hj, htimeout, hlinks,
    hadvanced.trans (advanced_zero htxhead hmTxBuf hmTxHead), hmRx, htTxBuf, htTxHead, htRx⟩
  rw [exec, execExecute, hpush, except_bind_ok, hpoll, except_bind_ok, perform_responds hfault]
  rfl

/-- If EXECUTE answers a next state, its push moved only m.tx, and its poll ended in the state before the response. -/
theorem exec_execute_next {s t : State} {x : Text} (h : exec (.execute x) s = .next t) :
    ∃ m r line s', TxOnly s.m m ∧ pollLoop s.cfg.waitBudget none { s with m := m } = .ok (r, line, s') ∧
      t = s'.respond (respResult r line) := by
  obtain ⟨-, ⟨c, s', hbody, rfl⟩ | ⟨c, hbody, -⟩⟩ := perform_next h
  all_goals
    obtain ⟨m, hpush, hbody⟩ := except_bind_eq_ok hbody
    obtain ⟨⟨r, line, s₁⟩, hpoll, hs'⟩ := except_bind_eq_ok hbody
    cases hs'
  exact ⟨m, r, line, s', txPushString_eq_ok hpush, hpoll, rfl⟩

/-! ### The response (R145, R147) -/

theorem respResult_eq (r : CommandResult) (line : Option Text) :
    respResult r line = ⟨r.code.setWidth 16 + (if line.isSome then 0x0100 else 0x0000), line.toList⟩ := by
  cases line with
  | none => simp [respResult]
  | some y => rfl

/-! ### One classification (R142) -/

theorem QLink.probe_of_found {cfg : Config} {k : QLink} {e : Text} (h : Found cfg.escByte k.rx e) :
    ∃ k', k.probe cfg e = (true, k') := by
  obtain ⟨u, r, hu, hrx⟩ := h
  exact ⟨_, QLink.probe_of_match (hrx ▸ matchList_of_spells hu r) rfl⟩

theorem QLink.probe_of_not_found {cfg : Config} {k : QLink} {e : Text} (h : ¬ Found cfg.escByte k.rx e) :
    k.probe cfg e = (false, k) := QLink.probe_of_mismatch (matchList_of_not_found h)

section OneClassification

variable {cfg : Config} {k : QLink}

theorem QLink.classify_of_ok (hok : Found cfg.escByte k.rx tokenOK) : ∃ k', k.classify cfg = (.ok, k') := by
  obtain ⟨k', hprobe⟩ := QLink.probe_of_found hok
  exact ⟨k', by rw [QLink.classify, hprobe]⟩

theorem QLink.classify_of_error (hok : ¬ Found cfg.escByte k.rx tokenOK) (herror : Found cfg.escByte k.rx tokenERROR) :
    ∃ k', k.classify cfg = (.error, k') := by
  obtain ⟨k', hprobe⟩ := QLink.probe_of_found herror
  exact ⟨k', by simp only [QLink.classify, QLink.probe_of_not_found hok, hprobe]⟩

theorem QLink.classify_of_neither (hok : ¬ Found cfg.escByte k.rx tokenOK) (herror : ¬ Found cfg.escByte k.rx tokenERROR) :
    k.classify cfg = (.line (k.extract cfg.smallCap).1, (k.extract cfg.smallCap).2) := by
  simp only [QLink.classify, QLink.probe_of_not_found hok, QLink.probe_of_not_found herror]

/-- A line that begins with neither token is captured and consumed through its CR. -/
theorem QLink.classify_of_line {line rest : Text} (hok : ¬ Found cfg.escByte k.rx tokenOK)
    (herror : ¬ Found cfg.escByte k.rx tokenERROR) (hline : noTerminator line) (hrx : k.rx = line ++ byteCR :: rest) :
    k.classify cfg = (.line (keptText cfg.smallCap line), { k with rx := rest, pcr := satDec k.pcr }) := by
  have hextract : k.extract cfg.smallCap = (keptText cfg.smallCap line, { k with rx := rest, pcr := satDec k.pcr }) :=
    QLink.extract_of_list (cr := true) (hrx ▸ extractList_keptText cfg.smallCap (byteCR :: rest) hline)
  rw [QLink.classify_of_neither hok herror, hextract]

end OneClassification

/-! ### The captured text (R125, R143) -/

theorem extractList_length {cap : Nat} {x c : Text} (h : x.length ≤ cap - 1) :
    (extractList cap x c).1.length ≤ cap - 1 := by
  induction c generalizing x with
  | nil => exact h
  | cons b c ih =>
    unfold extractList
    split_ifs
    · exact h
    · exact h
    · exact ih h
    · exact ih (satAppend_length h)

theorem QLink.classify_line_length {cfg : Config} {k : QLink} {y : Text} (h : (k.classify cfg).1 = .line y) :
    y.length ≤ cfg.smallCap - 1 := by
  by_cases hok : Found cfg.escByte k.rx tokenOK
  · obtain ⟨k', hclassify⟩ := QLink.classify_of_ok hok
    rw [hclassify] at h
    cases h
  by_cases herror : Found cfg.escByte k.rx tokenERROR
  · obtain ⟨k', hclassify⟩ := QLink.classify_of_error hok herror
    rw [hclassify] at h
    cases h
  rw [QLink.classify_of_neither hok herror] at h
  cases h
  exact extractList_length (Nat.zero_le _)

/-! ### One increment of the poll (R140, R141, R143) -/

section OneIncrement

variable {n : Nat} {line : Option Text} {q : QState}

theorem QState.poll_of_quiet (hpcr : q.service.m.pcr = 0) : q.poll (n + 1) line = q.service.poll n line := by
  rw [QState.poll]
  exact if_pos hpcr

variable {k : QLink} (hpcr : q.service.m.pcr ≠ 0)
include hpcr

theorem QState.poll_of_ok (hclassify : q.service.m.classify q.service.cfg = (.ok, k)) :
    q.poll (n + 1) line = (.ok, line, { q.service with m := k }) := by
  simp only [QState.poll, if_neg hpcr, hclassify]

theorem QState.poll_of_error (hclassify : q.service.m.classify q.service.cfg = (.error, k)) :
    q.poll (n + 1) line = (.error, line, { q.service with m := k }) := by
  simp only [QState.poll, if_neg hpcr, hclassify]

theorem QState.poll_of_line {y : Text} (hclassify : q.service.m.classify q.service.cfg = (.line y, k)) :
    q.poll (n + 1) line = QState.poll n (some y) { q.service with m := k } := by
  simp only [QState.poll, if_neg hpcr, hclassify]

end OneIncrement

/-- Every captured text fits its buffer, where the last one captured before the poll does. -/
theorem QState.poll_line_length {n : Nat} {line : Option Text} {q : QState}
    (h : ∀ y, line = some y → y.length ≤ q.cfg.smallCap - 1) :
    ∀ y, (q.poll n line).2.1 = some y → y.length ≤ q.cfg.smallCap - 1 := by
  induction n generalizing line q with
  | zero => exact h
  | succ n ih =>
    by_cases hpcr : q.service.m.pcr = 0
    · rw [QState.poll_of_quiet hpcr]
      exact ih (q := q.service) h
    rcases hclassify : q.service.m.classify q.service.cfg with ⟨_ | _ | y, k⟩
    · rw [QState.poll_of_ok hpcr hclassify]
      exact h
    · rw [QState.poll_of_error hpcr hclassify]
      exact h
    · rw [QState.poll_of_line hpcr hclassify]
      refine ih (q := { q.service with m := k }) fun z hz => ?_
      cases hz
      exact QLink.classify_line_length (congrArg Prod.fst hclassify)

/-! ### A silent peer (R144) -/

theorem qAppend_of_le {cfg : Config} {x y : Text} (h : x.length + y.length ≤ cfg.linkCap - 1) : qAppend cfg x y = x ++ y :=
  lastN_of_le (by rwa [List.length_append])

/-- A service moves bytes from TX to the wire and loses none. -/
theorem QLink.service_sent (cfg : Config) (k : QLink) (x : Text) (n : Nat) :
    (k.service cfg x n).wire ++ (k.service cfg x n).tx = k.wire ++ k.tx := by
  change (k.wire ++ k.tx.take n) ++ k.tx.drop n = _
  rw [List.append_assoc, List.take_append_drop]

/-- What the queue machine's poll leaves when the module receives nothing and the terminal's bytes ds fit: no byte lost. -/
structure SilentlyPolled (ds : List Draw) (q q' : QState) : Prop where
  pcr : q'.m.pcr = 0
  mSent : q'.m.wire ++ q'.m.tx = q.m.wire ++ q.m.tx
  tSent : q'.t.wire ++ q'.t.tx = q.t.wire ++ q.t.tx
  tRx : q'.t.rx = q.t.rx ++ (ds.map fun d => d.rxT).flatten

theorem QState.poll_silent {n : Nat} {line : Option Text} {q : QState} (hpcr : q.m.pcr = 0)
    (hsilent : ∀ d ∈ upcoming n q.draws q.serviced, d.rxM = [])
    (hroom : q.t.rx.length + receivedT (upcoming n q.draws q.serviced) ≤ q.cfg.linkCap - 1) :
    ∃ q', q.poll n line = (.timeout, line, q') ∧ SilentlyPolled (upcoming n q.draws q.serviced) q q' := by
  induction n generalizing q with
  | zero => exact ⟨q, rfl, hpcr, rfl, rfl, (List.append_nil _).symm⟩
  | succ n ih =>
    obtain ⟨hnone, hrest⟩ := List.forall_mem_cons.1 hsilent
    have hpcr' : q.service.m.pcr = 0 := by
      change satIncEach q.m.pcr (pickDraw q.draws q.serviced).rxM = 0
      rw [hnone]
      exact hpcr
    simp only [upcoming, receivedT, List.map_cons, List.sum_cons] at hroom
    have hrx : q.service.t.rx = q.t.rx ++ (pickDraw q.draws q.serviced).rxT := qAppend_of_le (by omega)
    obtain ⟨q', hpoll, hpcr'', hmSent, htSent, htRx⟩ := ih hpcr' hrest (by
      rw [hrx, List.length_append, Nat.add_assoc]
      exact hroom)
    refine ⟨q', (QState.poll_of_quiet hpcr').trans hpoll, hpcr'', hmSent.trans (QLink.service_sent _ _ _ _),
      htSent.trans (QLink.service_sent _ _ _ _), ?_⟩
    rw [htRx, hrx, List.append_assoc]
    rfl

/-- The transmitter touches neither the RX channel nor the counter. -/
theorem transmit_eq_ok {cfg : Config} {k k' : LinkState} {n : Nat} (h : transmit cfg k n = .ok k') :
    k'.rx = k.rx ∧ k'.pcr = k.pcr := by
  induction n generalizing k with
  | zero => cases h; exact ⟨rfl, rfl⟩
  | succ n ih =>
    obtain ⟨⟨r, k₁⟩, hpop, h⟩ := except_bind_eq_ok h
    obtain ⟨hrx, hpcr, -⟩ := txPop_eq_ok hpop
    cases r with
    | none => cases h; exact ⟨hrx, hpcr⟩
    | some b =>
      obtain ⟨hrx', hpcr'⟩ := ih h
      exact ⟨hrx'.trans hrx, hpcr'.trans hpcr⟩

/-- Against a silent peer no classification runs, so the poll leaves m.rx as it was, tail included. -/
theorem pollLoop_silent_rx {n : Nat} {line line' : Option Text} {s s' : State} {r : CommandResult}
    (h : pollLoop n line s = .ok (r, line', s')) (hpcr : s.m.pcr = 0) (hsilent : ∀ d ∈ s.drawsAhead n, d.rxM = []) :
    s'.m.rx = s.m.rx := by
  induction n generalizing s with
  | zero => cases h; rfl
  | succ n ih =>
    obtain ⟨hnone, hrest⟩ := List.forall_mem_cons.1 hsilent
    obtain ⟨s₁, hservice, h⟩ := except_bind_eq_ok h
    obtain ⟨m, t, rfl, hm, -⟩ := serviceNext_eq_ok hservice
    rw [State.nextDraw, hnone] at hm
    obtain ⟨hrx, hpcr'⟩ := transmit_eq_ok hm
    rw [if_pos (hpcr'.trans hpcr)] at h
    exact (ih h (hpcr'.trans hpcr) hrest).trans hrx

/-! ### The statements -/

/-- Settles O34: the queue machine's poll gives the answer, and the services the storage. -/
theorem executeAnswersWithinItsBudget : Obligations.ExecuteAnswersWithinItsBudget := by
  intro s x hwf hfault
  obtain ⟨r, line, j, m, t, hexec, hpoll, hdata, hj, htimeout, ⟨-, hm, ht⟩, hstorage⟩ := exec_execute_is hwf hfault x
  have hlength := QState.poll_line_length (n := s.cfg.waitBudget) (q := s.abs.commanded x) (line := none)
    fun _ hnone => nomatch hnone
  rw [hpoll] at hlength
  rw [respResult_eq] at hexec
  exact ⟨r, line, j, m, t, hexec, hdata, hj, htimeout, hlength, hm, ht, hstorage.mTx, hstorage.mRx, hstorage.tTxBuf,
    hstorage.tTxHead, hstorage.tRx⟩

/-- Settles O35 on the queue machine: the first increment, by what its classification finds. -/
theorem okIsTriedBeforeError : Obligations.OkIsTriedBeforeError := by
  intro s x hwf hfault hbudget esc q n
  obtain ⟨t, hexec, -, habs⟩ := execute_refines hwf hfault x
  obtain ⟨b, hb⟩ := Nat.exists_eq_add_of_le' hbudget
  have hafter : ∀ {r line q'}, (s.abs.commanded x).poll (b + 1) none = (r, line, q') →
      t.abs = q'.respond (respResult r line) := fun hpoll =>
    habs.trans (QState.exec_execute_of_poll (hb ▸ hpoll))
  refine ⟨t, hexec, fun hn hok => ?_, fun hn hok herror => ?_, fun hn hok herror hone line rest hline hq => ?_,
    fun hn hone => ?_⟩
  · obtain ⟨k, hclassify⟩ := QLink.classify_of_ok (k := (s.abs.commanded x).service.m) hok
    exact congrArg QState.responses (hafter (QState.poll_of_ok hn hclassify))
  · obtain ⟨k, hclassify⟩ := QLink.classify_of_error (k := (s.abs.commanded x).service.m) hok herror
    exact congrArg QState.responses (hafter (QState.poll_of_error hn hclassify))
  · obtain rfl : b = 0 := by omega
    have hclassify := QLink.classify_of_line (k := (s.abs.commanded x).service.m) hok herror hline hq
    have ht := hafter (QState.poll_of_line (q := s.abs.commanded x) hn hclassify)
    exact ⟨congrArg QState.responses ht, congrArg (fun q => q.m.rx) ht⟩
  · obtain rfl : b = 0 := by omega
    have ht := hafter (QState.poll_of_quiet hn)
    exact ⟨congrArg QState.responses ht, congrArg (fun q => q.m.rx) ht⟩

/-- Settles O36: the queue machine accounts for the bytes, and the poll's own loop leaves m.rx alone. -/
theorem silentPeerTimesOutWithoutLoss : Obligations.SilentPeerTimesOutWithoutLoss := by
  intro s x hwf hfault hpcr hsilent hroomTx hroomRx
  obtain ⟨r, line, j, m, t, hexec, hpoll, -, -, htimeout, -⟩ := exec_execute_is hwf hfault x
  obtain ⟨q', hpoll', hpcr', hmSent, htSent, htRx⟩ :=
    QState.poll_silent (q := s.abs.commanded x) (line := none) hpcr hsilent hroomRx
  cases hpoll.symm.trans hpoll'
  cases htimeout rfl
  have hrx : m.rx = s.m.rx := by
    obtain ⟨m', r', line', s', hpush, hloop, hs'⟩ := exec_execute_next hexec
    have hkept := pollLoop_silent_rx hloop (hpush.pcr.trans hpcr) hsilent
    rw [← hpush.rx, ← hkept]
    exact congrArg (fun s : State => s.m.rx) hs'
  have hpushed : (s.abs.commanded x).m.tx = s.content .m .tx ++ x := qAppend_of_le hroomTx
  rw [hpushed, ← List.append_assoc] at hmSent
  exact ⟨m, t, hexec, hrx, hpcr', hmSent, htSent, htRx⟩

end Sys2Proof.Machine
end

section
/-! PROOFS. The frame decoder: one byte by R167's table; the decoder run on a list of bytes; and TRY_RECV, which
runs it on what m.rx holds: a whole frame, a frame in two parts, a frame with no SPACE (43_frame_decoder.md R160 to R176). -/

namespace Sys2Proof.Machine

/-! ### One byte, by the tests a state makes (R161 to R166) -/

/-- A field with one byte more: a printable byte as far as there is room, any other byte dropped (R174). -/
def keepByte (cap : Nat) (x : Text) (b : Byte) : Text := if isPrintable b then satAppend x b cap else x

section DecStep

variable {cfg : Config} {c b : Byte} {ip port pay : Text}

theorem decStep_idle_esc : decStep cfg ⟨.idle, c, ip, port, pay⟩ cfg.escByte = (none, ⟨.sawEsc, c, ip, port, pay⟩) := by
  simp [decStep]

theorem decStep_idle_other (hesc : b ≠ cfg.escByte) :
    decStep cfg ⟨.idle, c, ip, port, pay⟩ b = (none, ⟨.idle, c, ip, port, pay⟩) := by
  simp [decStep, hesc]

theorem decStep_sawEsc_u : decStep cfg ⟨.sawEsc, c, ip, port, pay⟩ byteU = (none, ⟨.sawU, c, ip, port, pay⟩) := by
  simp [decStep]

theorem decStep_sawEsc_other (hu : b ≠ byteU) :
    decStep cfg ⟨.sawEsc, c, ip, port, pay⟩ b = (none, ⟨.idle, c, ip, port, pay⟩) := by
  simp [decStep, hu]

theorem decStep_sawU : decStep cfg ⟨.sawU, c, ip, port, pay⟩ b = (none, ⟨.haveCid, b, [], port, pay⟩) := rfl

/-- The CID is read, and no byte of the IP yet: the first one finds the decoder as if some had come. -/
theorem decStep_haveCid : decStep cfg ⟨.haveCid, c, ip, port, pay⟩ b = decStep cfg ⟨.readingIp, c, ip, port, pay⟩ b := rfl

theorem decStep_readingIp_esc :
    decStep cfg ⟨.readingIp, c, ip, port, pay⟩ cfg.escByte = (none, ⟨.idle, c, ip, port, pay⟩) := by
  simp [decStep]

theorem decStep_readingIp_space (hesc : byteSPACE ≠ cfg.escByte) :
    decStep cfg ⟨.readingIp, c, ip, port, pay⟩ byteSPACE = (none, ⟨.readingPort, c, ip, [], pay⟩) := by
  simp [decStep, hesc]

theorem decStep_readingIp_other (hesc : b ≠ cfg.escByte) (hsp : b ≠ byteSPACE) :
    decStep cfg ⟨.readingIp, c, ip, port, pay⟩ b = (none, ⟨.readingIp, c, keepByte cfg.smallCap ip b, port, pay⟩) := by
  simp [decStep, hesc, hsp, keepByte]

theorem decStep_readingPort_esc :
    decStep cfg ⟨.readingPort, c, ip, port, pay⟩ cfg.escByte = (none, ⟨.idle, c, ip, port, pay⟩) := by
  simp [decStep]

theorem decStep_readingPort_tab (hesc : byteTAB ≠ cfg.escByte) :
    decStep cfg ⟨.readingPort, c, ip, port, pay⟩ byteTAB = (none, ⟨.readingPayload, c, ip, port, []⟩) := by
  simp [decStep, hesc]

theorem decStep_readingPort_other (hesc : b ≠ cfg.escByte) (htab : b ≠ byteTAB) :
    decStep cfg ⟨.readingPort, c, ip, port, pay⟩ b = (none, ⟨.readingPort, c, ip, keepByte cfg.smallCap port b, pay⟩) := by
  cases hpr : isPrintable b <;> simp [decStep, hesc, htab, keepByte, hpr]

theorem decStep_readingPayload_esc :
    decStep cfg ⟨.readingPayload, c, ip, port, pay⟩ cfg.escByte =
      (some ⟨c, ip, port, pay⟩, ⟨.idle, c, ip, port, pay⟩) := by
  simp [decStep]

theorem decStep_readingPayload_other (hesc : b ≠ cfg.escByte) :
    decStep cfg ⟨.readingPayload, c, ip, port, pay⟩ b =
      (none, ⟨.readingPayload, c, ip, port, keepByte cfg.payloadCap pay b⟩) := by
  cases hpr : isPrintable b <;> simp [decStep, hesc, keepByte, hpr]

end DecStep

/-! ### The table's rows, and its classes by tests of the byte (R167) -/

section ClassTests

variable {esc b : Byte}

theorem byteClass_eq_esc_iff : byteClass esc b = .esc ↔ b = esc := by
  unfold byteClass
  split_ifs with hesc <;> simp [hesc]

theorem byteClass_eq_sp_iff : byteClass esc b = .sp ↔ b ≠ esc ∧ b = byteSPACE := by
  unfold byteClass
  split_ifs with hesc hsp <;> simp_all

theorem byteClass_eq_tab_iff : byteClass esc b = .tab ↔ b ≠ esc ∧ b = byteTAB := by
  unfold byteClass
  split_ifs with hesc hsp htab <;> simp_all [byteTAB, byteSPACE]

theorem byteClass_eq_u_iff : byteClass esc b = .u ↔ b ≠ esc ∧ b = byteU := by
  unfold byteClass
  split_ifs with hesc hsp htab hu <;> simp_all [byteTAB, byteSPACE, byteU]

/-- The classes of the bytes that a port and a payload keep. -/
theorem byteClass_printable_iff :
    byteClass esc b = .sp ∨ byteClass esc b = .u ∨ byteClass esc b = .pr ↔ b ≠ esc ∧ isPrintable b = true := by
  unfold byteClass
  split_ifs with hesc hsp htab hu hpr <;> simp_all [isPrintable, byteTAB, byteSPACE, byteU]

/-- The classes of the bytes that an IP text keeps, which ends at a SPACE. -/
theorem byteClass_u_or_pr_iff :
    byteClass esc b = .u ∨ byteClass esc b = .pr ↔ b ≠ esc ∧ b ≠ byteSPACE ∧ isPrintable b = true := by
  unfold byteClass
  split_ifs with hesc hsp htab hu hpr <;> simp_all [isPrintable, byteTAB, byteSPACE, byteU]

end ClassTests

theorem frameTable_idle (k : ByteClass) : frameTable .idle k = if k = .esc then .sawEsc else .idle := by
  cases k <;> rfl

theorem frameTable_sawEsc (k : ByteClass) : frameTable .sawEsc k = if k = .u then .sawU else .idle := by
  cases k <;> rfl

theorem frameTable_sawU (k : ByteClass) : frameTable .sawU k = .haveCid := by
  cases k <;> rfl

theorem frameTable_haveCid (k : ByteClass) : frameTable .haveCid k = frameTable .readingIp k := by
  cases k <;> rfl

theorem frameTable_readingIp (k : ByteClass) :
    frameTable .readingIp k = if k = .esc then .idle else if k = .sp then .readingPort else .readingIp := by
  cases k <;> rfl

theorem frameTable_readingPort (k : ByteClass) :
    frameTable .readingPort k = if k = .esc then .idle else if k = .tab then .readingPayload else .readingPort := by
  cases k <;> rfl

theorem frameTable_readingPayload (k : ByteClass) :
    frameTable .readingPayload k = if k = .esc then .idle else .readingPayload := by
  cases k <;> rfl

/-- Settles O37, state by state: a state's tests of the byte are those that its row makes of the class. -/
theorem decoderFollowsTheTable : Obligations.DecoderFollowsTheTable := by
  rintro cfg ⟨st, cid, ip, port, pay⟩ b hU
  simp only [↓byteClass_printable_iff, ↓byteClass_u_or_pr_iff, byteClass_eq_esc_iff, byteClass_eq_sp_iff,
    byteClass_eq_tab_iff]
  cases st with
  | idle =>
    by_cases hesc : b = cfg.escByte
    · subst hesc
      simp [decStep_idle_esc, frameTable_idle, byteClass_eq_esc_iff]
    · simp [decStep_idle_other hesc, frameTable_idle, byteClass_eq_esc_iff, hesc]
  | sawEsc =>
    by_cases hu : b = byteU
    · subst hu
      have hesc : byteU ≠ cfg.escByte := hU.symm
      simp [decStep_sawEsc_u, frameTable_sawEsc, byteClass_eq_u_iff, hesc]
    · simp [decStep_sawEsc_other hu, frameTable_sawEsc, byteClass_eq_u_iff, hu]
  | sawU => simp [decStep_sawU, frameTable_sawU]
  | haveCid | readingIp =>
    simp only [decStep_haveCid, frameTable_haveCid, frameTable_readingIp, byteClass_eq_esc_iff, byteClass_eq_sp_iff]
    by_cases hesc : b = cfg.escByte
    · subst hesc
      simp [decStep_readingIp_esc]
    by_cases hsp : b = byteSPACE
    · subst hsp
      simp [decStep_readingIp_space hesc, hesc]
    · simp [decStep_readingIp_other hesc hsp, hesc, hsp, keepByte]
  | readingPort =>
    simp only [frameTable_readingPort, byteClass_eq_esc_iff, byteClass_eq_tab_iff]
    by_cases hesc : b = cfg.escByte
    · subst hesc
      simp [decStep_readingPort_esc]
    by_cases htab : b = byteTAB
    · subst htab
      have hpr : isPrintable byteTAB = false := by decide
      simp [decStep_readingPort_tab hesc, hesc, hpr]
    · simp [decStep_readingPort_other hesc htab, hesc, htab, keepByte]
  | readingPayload =>
    simp only [frameTable_readingPayload, byteClass_eq_esc_iff]
    by_cases hesc : b = cfg.escByte
    · subst hesc
      simp [decStep_readingPayload_esc]
    · simp [decStep_readingPayload_other hesc, hesc, keepByte]

/-! ### The decoder run on a list of bytes (R168) -/

theorem decodeList_cons_none {cfg : Config} {d d' : Decoder} {b : Byte} (x : Text) (h : decStep cfg d b = (none, d')) :
    decodeList cfg d (b :: x) = decodeList cfg d' x := by
  simp only [decodeList, h]

theorem decodeList_cons_some {cfg : Config} {d d' : Decoder} {b : Byte} {f : Frame} (x : Text)
    (h : decStep cfg d b = (some f, d')) : decodeList cfg d (b :: x) = (some f, d', x) := by
  simp only [decodeList, h]

/-- A run without a frame takes every byte. -/
theorem decodeList_none_left {cfg : Config} {d : Decoder} {x : Text} (h : (decodeList cfg d x).1 = none) :
    (decodeList cfg d x).2.2 = [] := by
  induction x generalizing d with
  | nil => rfl
  | cons b x ih =>
    rcases hd : decStep cfg d b with ⟨_ | f, d'⟩
    · rw [decodeList_cons_none x hd] at h ⊢
      exact ih h
    · rw [decodeList_cons_some x hd] at h
      cases h

/-- A run without a frame leaves the decoder from which the bytes after it are run (R171). -/
theorem decodeList_append {cfg : Config} {d : Decoder} {x : Text} (y : Text) (h : (decodeList cfg d x).1 = none) :
    decodeList cfg d (x ++ y) = decodeList cfg (decodeList cfg d x).2.1 y := by
  induction x generalizing d with
  | nil => rfl
  | cons b x ih =>
    rcases hd : decStep cfg d b with ⟨_ | f, d'⟩
    · rw [List.cons_append, decodeList_cons_none _ hd]
      rw [decodeList_cons_none x hd] at h ⊢
      exact ih h
    · rw [decodeList_cons_some x hd] at h
      cases h

/-- A field of at most `cap - 1` bytes with more bytes, one by one. -/
theorem foldl_keepByte {cap : Nat} {x : Text} (y : Text) (hx : x.length ≤ cap - 1) :
    y.foldl (keepByte cap) x = (x ++ y.filter isPrintable).take (cap - 1) := by
  induction y generalizing x with
  | nil => simp [List.take_of_length_le hx]
  | cons b y ih =>
    rw [List.foldl_cons]
    cases hpr : isPrintable b with
    | true =>
      rw [keepByte, if_pos hpr, ih (satAppend_length hx), satAppend_eq_take b hx, take_take_append]
      simp [hpr]
    | false =>
      rw [keepByte, hpr, if_neg Bool.false_ne_true, ih hx]
      simp [hpr]

/-- A field read from its start holds its kept text (R174). -/
theorem foldl_keepByte_nil (cap : Nat) (y : Text) : y.foldl (keepByte cap) [] = keptText cap y :=
  foldl_keepByte y (Nat.zero_le _)

/-- Bytes that only add to one field: `field x` is the decoder while the field holds x. -/
theorem decodeList_field {cfg : Config} {cap : Nat} {field : Text → Decoder} {y : Text} (x rest : Text)
    (hstep : ∀ x, ∀ b ∈ y, decStep cfg (field x) b = (none, field (keepByte cap x b))) :
    decodeList cfg (field x) (y ++ rest) = decodeList cfg (field (y.foldl (keepByte cap) x)) rest := by
  induction y generalizing x with
  | nil => rfl
  | cons b y ih =>
    rw [List.cons_append, decodeList_cons_none _ (hstep x b List.mem_cons_self), List.foldl_cons]
    exact ih _ fun x b hb => hstep x b (List.mem_cons_of_mem _ hb)

section Frames

variable {cfg : Config} {c : Byte} {ip port pay x : Text} (rest : Text)

theorem decodeList_idle (hesc : cfg.escByte ∉ x) :
    decodeList cfg ⟨.idle, c, ip, port, pay⟩ (x ++ rest) = decodeList cfg ⟨.idle, c, ip, port, pay⟩ rest := by
  induction x with
  | nil => rfl
  | cons b x ih =>
    obtain ⟨hb, hesc⟩ := List.ne_and_not_mem_of_not_mem_cons hesc
    rw [List.cons_append, decodeList_cons_none _ (decStep_idle_other hb.symm), ih hesc]

/-- The opener and the CID, with at least one byte after them (R161 to R163). -/
theorem decodeList_opener (cid : Byte) (hrest : rest ≠ []) :
    decodeList cfg ⟨.idle, c, ip, port, pay⟩ ([cfg.escByte, byteU, cid] ++ rest) =
      decodeList cfg ⟨.readingIp, cid, [], port, pay⟩ rest := by
  obtain ⟨b, rest, rfl⟩ := List.exists_cons_of_ne_nil hrest
  simp only [List.cons_append, List.nil_append]
  rw [decodeList_cons_none _ decStep_idle_esc, decodeList_cons_none _ decStep_sawEsc_u,
    decodeList_cons_none _ decStep_sawU]
  simp only [decodeList, decStep_haveCid]

theorem decodeList_ip (hesc : cfg.escByte ∉ x) (hsp : byteSPACE ∉ x) :
    decodeList cfg ⟨.readingIp, c, [], port, pay⟩ (x ++ rest) =
      decodeList cfg ⟨.readingIp, c, keptText cfg.smallCap x, port, pay⟩ rest := by
  rw [← foldl_keepByte_nil]
  exact decodeList_field (field := fun ip => ⟨.readingIp, c, ip, port, pay⟩) [] rest fun _ b hb =>
    decStep_readingIp_other (ne_of_mem_of_not_mem hb hesc) (ne_of_mem_of_not_mem hb hsp)

theorem decodeList_port (hesc : cfg.escByte ∉ x) (htab : byteTAB ∉ x) :
    decodeList cfg ⟨.readingPort, c, ip, [], pay⟩ (x ++ rest) =
      decodeList cfg ⟨.readingPort, c, ip, keptText cfg.smallCap x, pay⟩ rest := by
  rw [← foldl_keepByte_nil]
  exact decodeList_field (field := fun port => ⟨.readingPort, c, ip, port, pay⟩) [] rest fun _ b hb =>
    decStep_readingPort_other (ne_of_mem_of_not_mem hb hesc) (ne_of_mem_of_not_mem hb htab)

theorem decodeList_payload (hesc : cfg.escByte ∉ x) :
    decodeList cfg ⟨.readingPayload, c, ip, port, []⟩ (x ++ rest) =
      decodeList cfg ⟨.readingPayload, c, ip, port, keptText cfg.payloadCap x⟩ rest := by
  rw [← foldl_keepByte_nil]
  exact decodeList_field (field := fun pay => ⟨.readingPayload, c, ip, port, pay⟩) [] rest fun _ b hb =>
    decStep_readingPayload_other (ne_of_mem_of_not_mem hb hesc)

end Frames

/-- A whole frame, its fields without what ends them: it is delivered, and what follows it is left (R167, R172). -/
theorem decodeList_inboundFrame {cfg : Config} {c cid : Byte} {ip₀ port₀ pay₀ ip port pay : Text} (after : Text)
    (hsp : byteSPACE ≠ cfg.escByte) (htab : byteTAB ≠ cfg.escByte) (hipEsc : cfg.escByte ∉ ip) (hip : byteSPACE ∉ ip)
    (hportEsc : cfg.escByte ∉ port) (hport : byteTAB ∉ port) (hpay : cfg.escByte ∉ pay) :
    decodeList cfg ⟨.idle, c, ip₀, port₀, pay₀⟩ (inboundFrame cfg.escByte cid ip port pay ++ after) =
      (some ⟨cid, keptText cfg.smallCap ip, keptText cfg.smallCap port, keptText cfg.payloadCap pay⟩,
        ⟨.idle, cid, keptText cfg.smallCap ip, keptText cfg.smallCap port, keptText cfg.payloadCap pay⟩, after) := by
  unfold inboundFrame
  simp only [List.append_assoc, List.singleton_append]
  rw [decodeList_opener _ _ (by simp), decodeList_ip _ hipEsc hip, List.cons_append,
    decodeList_cons_none _ (decStep_readingIp_space hsp), decodeList_port _ hportEsc hport, List.cons_append,
    decodeList_cons_none _ (decStep_readingPort_tab htab), decodeList_payload _ hpay,
    decodeList_cons_some _ decStep_readingPayload_esc]

/-- A frame with no SPACE after its IP: its ESC ends it undelivered, and the bytes after that are discarded (R164, R176). -/
theorem decodeList_without_space {cfg : Config} {c cid : Byte} {ip port pay body tag : Text}
    (hbody : cfg.escByte ∉ body) (hsp : byteSPACE ∉ body) (htag : cfg.escByte ∉ tag) :
    decodeList cfg ⟨.idle, c, ip, port, pay⟩ ([cfg.escByte, byteU, cid] ++ body ++ [cfg.escByte] ++ tag) =
      (none, ⟨.idle, cid, keptText cfg.smallCap body, port, pay⟩, []) := by
  simp only [List.append_assoc, List.singleton_append]
  rw [decodeList_opener _ _ (by simp), decodeList_ip _ hbody hsp, decodeList_cons_none _ decStep_readingIp_esc,
    ← List.append_nil tag, decodeList_idle _ htag]
  rfl

/-! ### TRY_RECV in a well-formed state (R168, R170) -/

/-- The state once TRY_RECV has run the decoder: m.rx is left as rx, holding r, and the decoder as d. -/
def State.received (s : State) (rx : Channel) (r : Text) (d : Decoder) (f : Option Frame) : State :=
  { s with
    m := { s.m with rx := rx, pcr := takenPcr s.cfg.crAccounting s.m.pcr (consumed (s.content .m .rx) r) }
    dec := d
    ep := s.ep.learn f }

/-- Everything TRY_RECV does, given what the decoder makes of the content of m.rx. -/
theorem exec_tryRecv_is {s : State} {f : Option Frame} {d : Decoder} {r : Text} (hwf : s.wf) (hfault : s.fault = none)
    (h : decodeList s.cfg s.dec (s.content .m .rx) = (f, d, r)) :
    ∃ rx, exec .tryRecv s = .next ((s.received rx r d f).respond (respFrame f)) ∧
      Consumed s.cfg.linkCap s.m.rx rx r := by
  have hholds : Holds s.cfg.linkCap s.m.rx (s.content .m .rx) := hwf.holds .m .rx
  obtain ⟨rx, hrecv, hrx, hbuf, hhead⟩ := recvLoop_is s.dec hholds (Nat.lt_succ_self _)
  rw [h] at hrecv hrx
  refine ⟨rx, ?_, hbuf, hhead, hrx⟩
  change perform s _ = _
  rw [hholds.count_eq, hrecv]
  exact perform_responds hfault

/-- Only a response without a frame is the empty one. -/
theorem respFrame_eq_none_iff {f : Option Frame} : respFrame f = ⟨0x0000, []⟩ ↔ f = none := by
  cases f <;> simp [respFrame]

/-! ### The statements -/

/-- Settles O38: the loop is the decoder run on the content, and a run without a frame empties the channel. -/
theorem tryRecvRunsTheDecoder : Obligations.TryRecvRunsTheDecoder := by
  intro s hwf hfault q p
  obtain ⟨rx, hexec, hrx⟩ := exec_tryRecv_is hwf hfault (show decodeList s.cfg s.dec q = p from rfl)
  obtain ⟨-, -, -, hdec, -⟩ := hwf
  exact ⟨rx, hexec, hrx, decodeList_none_left, decodeList_wf q hdec⟩

/-- Settles O39: the decoder discards the bytes before the frame, and then reads it field by field. -/
theorem wellFormedFrameIsDelivered : Obligations.WellFormedFrameIsDelivered := by
  intro s before ip port pay after cid hwf hfault hidle esc hsp htab hbefore hipEsc hip hportEsc hport hpay hq ip' port' pay'
  have hdecode : decodeList s.cfg s.dec (s.content .m .rx) =
      (some ⟨cid, ip', port', pay'⟩, ⟨.idle, cid, ip', port', pay'⟩, after) := by
    rw [hq, List.append_assoc, show s.dec = ⟨.idle, s.dec.cid, s.dec.ip, s.dec.port, s.dec.pay⟩ by rw [← hidle]]
    rw [decodeList_idle _ hbefore]
    exact decodeList_inboundFrame after hsp.symm htab.symm hipEsc hip hportEsc hport hpay
  obtain ⟨rx, hexec, hrx⟩ := exec_tryRecv_is hwf hfault hdecode
  exact ⟨rx, _, hexec, hrx, fun hacc => by rw [hacc]; rfl⟩

/-- Settles O40: the first run leaves the decoder from which the second part is run. -/
theorem aParkedFrameContinues : Obligations.AParkedFrameContinues := by
  intro s t u v hwf hfault huwf hufault hvwf hvfault hexec hresponses hucfg hudec hvcfg hvdec hq
  obtain ⟨rx, hexec', -⟩ := exec_tryRecv_is hwf hfault rfl
  cases hexec.symm.trans hexec'
  have hnone : (decodeList s.cfg s.dec (s.content .m .rx)).1 = none :=
    respFrame_eq_none_iff.1 (List.singleton_inj.1 (List.append_cancel_left hresponses))
  have hsame : decodeList v.cfg v.dec (v.content .m .rx) = decodeList u.cfg u.dec (u.content .m .rx) := by
    rw [hvcfg, hvdec, hq, decodeList_append _ hnone, hucfg, hudec]
    rfl
  rcases hu : decodeList u.cfg u.dec (u.content .m .rx) with ⟨f, d, r⟩
  obtain ⟨rx, huexec, -, -, -, hurx⟩ := exec_tryRecv_is huwf hufault hu
  obtain ⟨rx', hvexec, -, -, -, hvrx⟩ := exec_tryRecv_is hvwf hvfault (hsame.trans hu)
  exact ⟨_, _, respFrame f, huexec, hvexec, rfl, rfl, rfl, hurx.trans hvrx.symm⟩

/-- Settles O41: the decoder is Idle again at the frame's closing ESC, and takes every byte. -/
theorem frameWithoutSpaceIsNotDelivered : Obligations.FrameWithoutSpaceIsNotDelivered := by
  intro s body tag cid hwf hfault hidle esc hbody hsp htag hq
  have hdecode : decodeList s.cfg s.dec (s.content .m .rx) =
      (none, ⟨.idle, cid, keptText s.cfg.smallCap body, s.dec.port, s.dec.pay⟩, []) := by
    rw [hq, show s.dec = ⟨.idle, s.dec.cid, s.dec.ip, s.dec.port, s.dec.pay⟩ by rw [← hidle]]
    exact decodeList_without_space hbody hsp htag
  obtain ⟨rx, hexec, -, -, -, hrx⟩ := exec_tryRecv_is hwf hfault hdecode
  exact ⟨_, hexec, rfl, hrx, rfl, rfl⟩

end Sys2Proof.Machine
end

section
/-! PROOFS. The frame encoder and the raw send: both push one text into a TX channel; and the round trip, where the
translated outbound frame is an inbound frame and the tag 'E' (44_frame_encoder.md R190 to R194). -/

namespace Sys2Proof.Machine

/-! ### A text pushed into a TX channel (R110) -/

theorem State.wf.exists_tx_pushed {s : State} (h : s.wf) (l : Link) (x : Text) :
    ∃ tx, pushString s.cfg.linkCap (s.link l).tx x = .ok tx ∧ Pushed s.cfg.linkCap (s.link l).tx tx x := by
  have hwf : Channel.wf s.cfg.linkCap (s.link l).tx := h.chanWf l .tx
  obtain ⟨tx, hpush, -⟩ := pushString_holds x h.two_le_linkCap (Channel.wf_holds hwf)
  exact ⟨tx, hpush, pushString_pushed h.two_le_linkCap hwf hpush⟩

/-! ### SEND_UDP (R190) -/

theorem exec_sendUdp_of_valid {s : State} {x : Text} {tx : Channel} (hfault : s.fault = none) (hvalid : s.ep.valid = true)
    (hpush : pushString s.cfg.linkCap s.m.tx (outboundFrame s.cfg s.ep x) = .ok tx) :
    exec (.sendUdp x) s = .next (State.respond { s with m := { s.m with tx := tx } } respNone) := by
  rw [exec, execSendUdp, if_pos hvalid]
  exact perform_onLink hfault (by rw [txPushString, hpush]; rfl)

/-- Without an endpoint the only change is the recorded fault (R211). -/
theorem exec_sendUdp_of_not_valid {s : State} (x : Text) (hfault : s.fault = none) (hvalid : s.ep.valid = false) :
    exec (.sendUdp x) s = .next { s with fault := some (.endpointUnset 0x5200) } := by
  rw [exec, execSendUdp, if_neg (Bool.not_eq_true _ ▸ hvalid), perform_raises hfault]
  rfl

/-! ### The frame and its translation (R191, R194) -/

theorem outboundFrame_length (cfg : Config) (ep : Endpoint) (x : Text) :
    (outboundFrame cfg ep x).length = 7 + ep.ip.length + ep.port.length + x.length := by
  simp only [outboundFrame, List.length_append, List.length_cons, List.length_nil]
  omega

/-- Setting the element between two parts of a list replaces it alone. -/
theorem set_append_cons {a : Text} {n : Nat} (hn : n = a.length) (b c : Byte) (rest : Text) :
    (a ++ b :: rest).set n c = a ++ c :: rest := by
  rw [hn, List.set_append_right _ _ le_rfl, Nat.sub_self, List.set_cons_zero]

/-- The outbound frame with its two separators translated is the inbound frame of the same fields, and its tag. -/
theorem outboundFrame_translated (cfg : Config) (ep : Endpoint) (x : Text) :
    ((outboundFrame cfg ep x).set (3 + ep.ip.length) byteSPACE).set (4 + ep.ip.length + ep.port.length) byteTAB =
      inboundFrame cfg.escByte ep.cid ep.ip ep.port x ++ [byteE] := by
  have hframe : outboundFrame cfg ep x =
      ([cfg.escByte, byteU, ep.cid] ++ ep.ip) ++ byteCOLON :: (ep.port ++ byteCOLON :: (x ++ [cfg.escByte, byteE])) := by
    simp [outboundFrame]
  have hip : ([cfg.escByte, byteU, ep.cid] ++ ep.ip) ++ byteSPACE :: (ep.port ++ byteCOLON :: (x ++ [cfg.escByte, byteE])) =
      ([cfg.escByte, byteU, ep.cid] ++ ep.ip ++ byteSPACE :: ep.port) ++ byteCOLON :: (x ++ [cfg.escByte, byteE]) := by
    simp
  rw [hframe, set_append_cons (by simp; omega), hip, set_append_cons (by simp; omega)]
  simp [inboundFrame]

/-! ### Printable texts (R174, R194) -/

/-- A printable text that fits its buffer is kept whole. -/
theorem keptText_of_printable {cap : Nat} {x : Text} (hpr : ∀ b ∈ x, isPrintable b = true) (hlen : x.length ≤ cap - 1) :
    keptText cap x = x := by
  rw [keptText, List.filter_eq_self.2 hpr, List.take_of_length_le hlen]

theorem not_mem_of_printable {b : Byte} {x : Text} (hpr : ∀ b ∈ x, isPrintable b = true) (hb : isPrintable b = false) :
    b ∉ x := fun hmem => Bool.false_ne_true (hb.symm.trans (hpr b hmem))

/-! ### Both ends of the round trip (R194) -/

/-- A frame that fits an empty m.tx is all that m.tx then holds. -/
theorem exec_sendUdp_content {s : State} {x : Text} (hwf : s.wf) (hfault : s.fault = none) (hvalid : s.ep.valid = true)
    (hempty : s.content .m .tx = [])
    (hroom : 7 + s.ep.ip.length + s.ep.port.length + x.length ≤ s.cfg.linkCap - 1) :
    ∃ t, exec (.sendUdp x) s = .next t ∧ t.content .m .tx = outboundFrame s.cfg s.ep x := by
  obtain ⟨tx, hpush, ⟨-, hcontent⟩, -⟩ := hwf.exists_tx_pushed .m (outboundFrame s.cfg s.ep x)
  refine ⟨_, exec_sendUdp_of_valid hfault hvalid hpush, hcontent.trans ?_⟩
  rw [show (s.link .m).tx.content s.cfg.linkCap = [] from hempty, List.nil_append]
  exact lastN_of_le (by rwa [outboundFrame_length])

/-- A frame of printable fields within their buffers, from the endpoint already learned, comes out byte for byte. -/
theorem exec_tryRecv_of_own_frame {u : State} {x after : Text} (hwf : u.wf) (hfault : u.fault = none)
    (hesc : u.cfg.escByte = 0x1B) (hvalid : u.ep.valid = true)
    (hip : ∀ b ∈ u.ep.ip, isPrintable b = true) (hsp : byteSPACE ∉ u.ep.ip) (hport : ∀ b ∈ u.ep.port, isPrintable b = true)
    (hx : ∀ b ∈ x, isPrintable b = true) (hlen : x.length ≤ u.cfg.payloadCap - 1) (hidle : u.dec.st = .idle)
    (hq : u.content .m .rx = inboundFrame u.cfg.escByte u.ep.cid u.ep.ip u.ep.port x ++ after) :
    ∃ v, exec .tryRecv u = .next v ∧
      v.responses = u.responses ++ [⟨0x0100 + u.ep.cid.setWidth 16, [u.ep.ip, u.ep.port, x]⟩] ∧
      v.ep = u.ep ∧ v.content .m .rx = after := by
  have hescPr : isPrintable u.cfg.escByte = false := by rw [hesc]; decide
  have htabPr : isPrintable byteTAB = false := by decide
  obtain ⟨rx, n, hexec, ⟨-, -, -, hrx⟩, -⟩ := wellFormedFrameIsDelivered u [] u.ep.ip u.ep.port x after u.ep.cid hwf hfault
    hidle (by rw [hesc]; decide) (by rw [hesc]; decide) List.not_mem_nil (not_mem_of_printable hip hescPr) hsp
    (not_mem_of_printable hport hescPr) (not_mem_of_printable hport htabPr) (not_mem_of_printable hx hescPr) hq
  obtain ⟨-, -, -, -, hipLen, hportLen⟩ := hwf
  rw [keptText_of_printable hip hipLen, keptText_of_printable hport hportLen, keptText_of_printable hx hlen] at hexec
  exact ⟨_, hexec, rfl, by simp only [State.respond, ← hvalid], hrx⟩

/-! ### The statements -/

/-- Settles O42: the frame is one text pushed into m.tx. -/
theorem sendUdpWritesItsFrame : Obligations.SendUdpWritesItsFrame := by
  refine fun s x hwf hfault => ⟨fun hvalid => ?_, exec_sendUdp_of_not_valid x hfault⟩
  obtain ⟨tx, hpush, hpushed⟩ := hwf.exists_tx_pushed .m (outboundFrame s.cfg s.ep x)
  exact ⟨tx, exec_sendUdp_of_valid hfault hvalid hpush, hpushed⟩

/-- Settles O43: the text itself is pushed into the link's TX channel. -/
theorem sendRawWritesItsText : Obligations.SendRawWritesItsText := by
  intro s l x hwf hfault
  obtain ⟨tx, hpush, hpushed⟩ := hwf.exists_tx_pushed l x
  exact ⟨tx, exec_sendRaw hfault hpush, hpushed⟩

/-- Settles O44: the bytes written, translated, are an inbound frame, which the receiver's decoder delivers. -/
theorem udpRoundTrip : Obligations.UdpRoundTrip := by
  intro s u x hwf hfault hesc hvalid hip hport hx hlen hempty hroom huwf hufault hcfg hep hidle
  obtain ⟨t, hexec, hframe⟩ := exec_sendUdp_content hwf hfault hvalid hempty hroom
  refine ⟨t, hexec, fun hq => ?_⟩
  have hinbound : u.content .m .rx = inboundFrame s.cfg.escByte s.ep.cid s.ep.ip s.ep.port x ++ [byteE] :=
    hq.trans (hframe ▸ outboundFrame_translated s.cfg s.ep x)
  rw [← hep] at hvalid hip hport hinbound ⊢
  rw [← hcfg] at hesc hlen hinbound
  exact exec_tryRecv_of_own_frame huwf hufault hesc hvalid (fun b hb => (hip b hb).1) (fun hmem => (hip _ hmem).2 rfl)
    hport hx hlen hidle hinbound

end Sys2Proof.Machine
end

section
/-! PROOFS. Link control: RESET_LINK empties both channels of its link by their indices, and nothing of the other link
(45_link_control.md R200, R201). -/

namespace Sys2Proof.Machine

/-- What a cleared link is, field by field: the storage of both channels and the wire trace are kept (R200). -/
theorem LinkState.cleared_eq (k : LinkState) :
    k.cleared = { k with rx := ⟨k.rx.buf, 0, 0⟩, tx := ⟨k.tx.buf, 0, 0⟩, pcr := 0 } := rfl

/-- The module link's reset also resets the decoder. -/
theorem exec_resetLink_m {s : State} (hfault : s.fault = none) :
    exec (.resetLink .m) s = .next (State.respond { s with m := s.m.cleared, dec := Decoder.reset } respNone) := by
  rw [exec, execResetLink, perform_responds hfault]
  rfl

theorem exec_resetLink_t {s : State} (hfault : s.fault = none) :
    exec (.resetLink .t) s = .next (State.respond { s with t := s.t.cleared } respNone) := by
  rw [exec, execResetLink, perform_responds hfault]
  rfl

/-- Settles O45, link by link: what the command answers, with the cleared link written out. -/
theorem resetLinkClearsItsLink : Obligations.ResetLinkClearsItsLink := by
  intro s hfault
  rw [exec_resetLink_m hfault, exec_resetLink_t hfault, LinkState.cleared_eq, LinkState.cleared_eq]
  exact ⟨rfl, rfl⟩

end Sys2Proof.Machine
end

section
/-! PROOFS. Faults: which commands can record one and when, that recording one changes nothing else, and that a recorded
one stops every command (60_exceptions.md R210 to R212). -/

namespace Sys2Proof

/-! ### The word a fault reason records (R43, R87) -/

/-- The decoder's verdict names the word it was given. -/
theorem word_eq_of_decode_illegalCommand {mo : Option Nat} {w v : Word} {ops : Text}
    (hdecode : decode mo w ops = .illegalCommand v) : v = w := by
  by_cases h : ∃ r, SpellsRow mo w ops r
  · obtain ⟨r, hspells⟩ := h
    cases (decode_of_spellsRow hspells).symm.trans hdecode
  · cases (decode_of_not_spellsRow (not_exists.1 h)).symm.trans hdecode
    rfl

/-- SEND_UDP has one word, and its payload is the operand string (R84, R85). -/
theorem eq_of_decode_sendUdp {mo : Option Nat} {w : Word} {ops x : Text}
    (hdecode : decode mo w ops = .command (.sendUdp x)) : w = 0x5200 ∧ ops = x := by
  obtain ⟨hencode, -⟩ := encode_of_decode hdecode
  cases hencode
  exact ⟨rfl, rfl⟩

end Sys2Proof

namespace Sys2Proof.Machine

/-! ### Which commands record a fault (R210) -/

/-- SEND_UDP is the one command that R49 lets write the fault. -/
theorem mayWrite_fault_iff {acc : CrAccounting} {i : Instr} : mayWrite acc i .fault = true ↔ ∃ x, i = .sendUdp x := by
  cases i <;> simp [mayWrite]

/-- A body that changes one link records no fault. -/
theorem onLink_next_fault {s t : State} {l : Link} {body : Except Fault (Response × LinkState)}
    (h : perform s (onLink s l body) = .next t) : t.fault = none := by
  obtain ⟨hfault, ⟨r, s', hbody, rfl⟩ | ⟨r, hbody, -⟩⟩ := perform_next h
  · obtain ⟨r', k, -, hs'⟩ := onLink_eq_ok hbody
    cases hs'
    exact (State.setLink_fault s l k).trans hfault
  · obtain ⟨r', k, -, hs'⟩ := onLink_eq_ok hbody
    cases hs'

theorem exec_sendUdp_fault_of_valid {s t : State} {x : Text} (hvalid : s.ep.valid = true)
    (h : exec (.sendUdp x) s = .next t) : t.fault = none := by
  rw [exec, execSendUdp, if_pos hvalid] at h
  exact onLink_next_fault h

/-- The only command that records a fault is SEND_UDP with no endpoint learned, and its reason is EndpointUnset. -/
theorem exec_records_iff {s : State} {i : Instr} {r : FaultReason} (hfault : s.fault = none) :
    (∃ t, exec i s = .next t ∧ t.fault = some r) ↔
      (∃ x, i = .sendUdp x) ∧ s.ep.valid = false ∧ r = .endpointUnset 0x5200 := by
  constructor
  · rintro ⟨t, hexec, hrecorded⟩
    cases hwrite : mayWrite s.cfg.crAccounting i .fault with
    | false =>
      have hsame : t.fault = s.fault := (exec_effect hexec).samePart hwrite
      cases hrecorded.symm.trans (hsame.trans hfault)
    | true =>
      obtain ⟨x, rfl⟩ := mayWrite_fault_iff.1 hwrite
      cases hvalid : s.ep.valid with
      | true => cases hrecorded.symm.trans (exec_sendUdp_fault_of_valid hvalid hexec)
      | false =>
        cases (exec_sendUdp_of_not_valid x hfault hvalid).symm.trans hexec
        cases hrecorded
        exact ⟨⟨x, rfl⟩, rfl, rfl⟩
  · rintro ⟨⟨x, rfl⟩, hvalid, rfl⟩
    exact ⟨_, exec_sendUdp_of_not_valid x hfault hvalid, rfl⟩

/-- A recorded fault stops every step (R212, R216). -/
theorem step_faulted {s : State} {r : FaultReason} (hfault : s.fault = some r) : step s = .fault (.stuck r) := by
  simp only [step, hfault]

/-! ### The statements -/

/-- Settles O7: a step of an illegal word records that word, and a step of a command records what the command does. -/
theorem exactlyTwoCausesOfAFault : Obligations.ExactlyTwoCausesOfAFault := by
  refine ⟨fun _ => ⟨rfl, rfl⟩, fun s c rest hfault hpending r => ?_⟩
  cases hdecode : decode s.cfg.maxOperand c.word c.operand with
  | illegalCommand w =>
    obtain rfl := word_eq_of_decode_illegalCommand hdecode
    rw [step_of_illegal hfault hpending hdecode]
    constructor
    · rintro ⟨t, hnext, hrecorded⟩
      cases hnext
      cases hrecorded
      exact .inl ⟨rfl, rfl⟩
    · rintro (⟨-, rfl⟩ | ⟨hsend, -⟩)
      · exact ⟨_, rfl, rfl⟩
      · cases hsend
  | command i =>
    rw [step_of_decode hfault hpending hdecode, exec_records_iff (s := { s with pending := rest }) hfault]
    constructor
    · rintro ⟨⟨x, rfl⟩, hvalid, rfl⟩
      obtain ⟨hword, rfl⟩ := eq_of_decode_sendUdp hdecode
      exact .inr ⟨rfl, hvalid, by rw [hword]⟩
    · rintro (⟨hillegal, -⟩ | ⟨hsend, hvalid, rfl⟩)
      · cases hillegal
      · cases hsend
        obtain ⟨hword, -⟩ := eq_of_decode_sendUdp hdecode
        exact ⟨⟨_, rfl⟩, hvalid, by rw [hword]⟩

/-- Settles O5: the step and every command test the fault first, and power-on records none. -/
theorem recordedFaultStopsEveryCommand : Obligations.RecordedFaultStopsEveryCommand :=
  ⟨fun _ _ hfault => ⟨step_faulted hfault, exec_faulted hfault⟩, State.powerOn_fault⟩

/-- Settles O6: the step of an illegal word, SEND_UDP without an endpoint, and the raise that both are made of. -/
theorem raisingAFaultIsPrecise : Obligations.RaisingAFaultIsPrecise := by
  refine ⟨fun s c rest w hfault hpending hdecode => ?_,
    fun s x hfault hvalid => exec_sendUdp_of_not_valid x hfault hvalid, fun s r r' hfault => ?_⟩
  · obtain rfl := word_eq_of_decode_illegalCommand hdecode
    exact step_of_illegal hfault hpending hdecode
  · have hraise := State.raise_of_none hfault r
    exact ⟨hraise, State.raise_of_some (by rw [hraise]) r'⟩

end Sys2Proof.Machine
end

section
/-! PROOFS. Power-on reset: what every link, channel and other field holds after it, and that RESET_LINK finds nothing left
to clear in it (70_reset_and_hazards.md R240, R242). -/

namespace Sys2Proof.Machine

/-! ### Each field after power-on (R48, R240) -/

@[simp] theorem State.powerOn_link (p : Config) (l : Link) : (State.powerOn p).link l = LinkState.reset := by
  cases l <;> rfl

@[simp] theorem LinkState.reset_chan (d : Dir) : LinkState.reset.chan d = Channel.reset := by cases d <;> rfl

@[simp] theorem State.powerOn_chan (p : Config) (l : Link) (d : Dir) : (State.powerOn p).chan l d = Channel.reset := by
  rw [State.chan, State.powerOn_link, LinkState.reset_chan]

/-- With both indices at 0 the count is 0 for every capacity, 0 included, so no slot is read. -/
@[simp] theorem Channel.reset_content (cap : Nat) : Channel.reset.content cap = [] := by
  have hcount : Channel.reset.count cap = 0 := by simp [Channel.count, Channel.reset, modSub]
  rw [Channel.content, hcount, List.range_zero, List.filterMap_nil]

@[simp] theorem State.powerOn_content (p : Config) (l : Link) (d : Dir) : (State.powerOn p).content l d = [] := by
  rw [State.content, State.powerOn_chan, Channel.reset_content]

/-! ### RESET_LINK after power-on (R242) -/

/-- What R200 clears in a link, R48 gives as its reset value. -/
@[simp] theorem LinkState.reset_cleared : LinkState.reset.cleared = LinkState.reset := rfl

/-! ### The statements -/

/-- Settles O1, field by field: the channels, the links, and the decoder, endpoint and fault. -/
theorem powerOnLeavesTheResetValues : Obligations.PowerOnLeavesTheResetValues := by
  refine fun p => ⟨fun l d => ?channels, fun l => ?links, State.powerOn_dec p, ?endpoint, State.powerOn_fault p⟩
  case channels =>
    rw [State.powerOn_chan, State.powerOn_content]
    exact ⟨rfl, rfl, rfl⟩
  case links =>
    rw [State.powerOn_link]
    exact ⟨rfl, rfl⟩
  case endpoint =>
    rw [State.powerOn_ep]
    rfl

/-- Settles O4: the link that is cleared, and for M the decoder, already hold what the reset gives them. -/
theorem resetLinkAfterPowerOnChangesNothing : Obligations.ResetLinkAfterPowerOnChangesNothing := by
  intro p l
  cases l with
  | m =>
    rw [exec_resetLink_m (State.powerOn_fault p), State.powerOn_m, LinkState.reset_cleared]
    rfl
  | t =>
    rw [exec_resetLink_t (State.powerOn_fault p), State.powerOn_t, LinkState.reset_cleared]
    rfl

end Sys2Proof.Machine
end
